-- ==== Sys2Proof/Word.lean ====
section
/-! DEFINITION. The widths of the block (00_scope.md R8): bytes, 16-bit words (the checksum, `ACC`) and
32-bit words (partition numbers). No value of the block is signed. -/

namespace Sys2Proof

/-- R8: "A byte is 8 bits, an unsigned value 0 to 255". -/
abbrev Byte := BitVec 8

/-- R8: the checksum and `ACC`, 16 bits, unsigned. -/
abbrev Word16 := BitVec 16

/-- R8: partition numbers in requests and responses, 32 bits. -/
abbrev Word32 := BitVec 32

end Sys2Proof
end

