-- ==== Sys2Proof/Machine/Flags.lean ====
section
/-! DEFINITION. The block has no flags (10_state.md R26). What stands for them is the status byte `ST`
that opens every response and is not kept: its names and its codes (30_encoding.md R67). -/

namespace Sys2Proof.Machine

/-- The outcomes a request can report (R67). -/
inductive Status where
  | ok
  | tooShort
  | badHeader
  | badFooter
  | checksumMismatch
  | unsupportedCommand
  | malformedPayload
  | illegalOp
  | overlength
  | badOperand
deriving DecidableEq, Repr

/-- The status byte `ST` (R67). -/
def Status.code : Status → Byte
  | .ok => 0x00#8
  | .tooShort => 0x01#8
  | .badHeader => 0x02#8
  | .badFooter => 0x03#8
  | .checksumMismatch => 0x04#8
  | .unsupportedCommand => 0x11#8
  | .malformedPayload => 0x12#8
  | .illegalOp => 0x81#8
  | .overlength => 0x82#8
  | .badOperand => 0x83#8

end Sys2Proof.Machine
end

