-- ==== Sys2Proof/Syntax.lean ====
section
/-! DEFINITION. The abstract syntax: one constructor per row name of spec/opcode_table.json. The first
eleven are requests (30_encoding.md R63, R66). The last three are the rows of the payload command space
(R72; 43_payload_decoder.md R160): what `PL.DECODE` runs on a payload with that command byte. -/

namespace Sys2Proof

/-- The operations of the block. Lengths `LEN` and `CNT` are the lengths of the lists (R75: they are
never written). -/
inductive Instr where
  /-- `CK.INIT` (R108). -/
  | ckInit
  /-- `CK.STEP b` (R109). -/
  | ckStep (b : Byte)
  /-- `CK.READ` (R110). -/
  | ckRead
  /-- `CK.COMPUTE [seq]` (R111). -/
  | ckCompute (seq : List Byte)
  /-- `FR.BUILD cmd, [data]` (R141). -/
  | frBuild (cmd : Byte) (data : List Byte)
  /-- `FR.PARSE [bytes]` (R142). -/
  | frParse (bytes : List Byte)
  /-- `FR.EXTRACT cmd, [data]` (R143). -/
  | frExtract (cmd : Byte) (data : List Byte)
  /-- `PL.DECODE [payload]` (R175). -/
  | plDecode (payload : List Byte)
  /-- `ZB.UNPACK [data]` (R176). -/
  | zbUnpack (data : List Byte)
  /-- `ZB.PACK nb, {p, ...}` (R178). -/
  | zbPack (nb : Nat) (ps : List Word32)
  /-- A reserved `OPB` (R66), with the byte itself. -/
  | illegalOp (opb : Byte)
  /-- A `7E` payload (R171), with the bytes after the command byte. -/
  | payload7E (rest : List Byte)
  /-- A `0A` payload (R174), with the bytes after the command byte. -/
  | payload0A (data : List Byte)
  /-- A payload with any other command byte (R163). -/
  | payloadOther (cmd : Byte) (rest : List Byte)
deriving DecidableEq, Repr

/-- The rows that are requests of their own (R63, R66), as against rows of the payload command space
(R72). -/
def Instr.isRequest : Instr → Bool
  | .ckInit | .ckStep _ | .ckRead | .ckCompute _ | .frBuild _ _ | .frParse _ | .frExtract _ _
  | .plDecode _ | .zbUnpack _ | .zbPack _ _ | .illegalOp _ => true
  | .payload7E _ | .payload0A _ | .payloadOther _ _ => false

end Sys2Proof
end

