-- ==== Sys2Proof/Config.lean ====
section
/-! DEFINITION. The two OPEN parameters of the spec (00_scope.md R7; 92_eei_decisions.md D3, D10), left
uninterpreted within the bounds R7 gives them, and the read-only constants of 10_state.md R29. -/

namespace Sys2Proof.Config

/-- The free number behind `MAX_LEN` (R7, D3; log entry 1). Nothing constrains it. -/
opaque maxLenExcess : Nat

/-- `MAX_LEN` (R7): every number from 14 to 65535 is the value for some `maxLenExcess`, and no other
number is. Left OPEN by the spec (D3; log entry 1). -/
def maxLen : Nat := maxLenExcess % 65522 + 14

/-- The free value behind `RENDER_DIGIT` (R7, D10; log entry 2): how many characters beyond the
first, and three ASCII (7-bit) characters of which the first one, two or three count. -/
opaque renderChoice : Byte → Fin 3 × BitVec 7 × BitVec 7 × BitVec 7

/-- `RENDER_DIGIT` (R7): an ASCII string of 1 to 3 characters for a version byte from 10 to 255.
Every such string is the value for some `renderChoice`. Left OPEN by the spec (D10; log entry 2). -/
def renderDigit (v : Byte) : List Byte :=
  match renderChoice v with
  | (more, c0, c1, c2) =>
    ([c0, c1, c2].take (more.val + 1)).map (fun c => c.setWidth 8)

/-- `INIT` (R29): the start value of every checksum. -/
def init : Word16 := 0x147A#16

/-- `HDR` (R29): the frame header `FE FE`. -/
def header : List Byte := [0xFE#8, 0xFE#8]

/-- `FTR` (R29): the frame footer `FE 0D`. -/
def footer : List Byte := [0xFE#8, 0x0D#8]

/-- `CMD_DEVINFO` (R29). -/
def cmdDevInfo : Byte := 0x7E#8

/-- `CMD_ZONES` (R29). -/
def cmdZones : Byte := 0x0A#8

/-- `ALARM_TYPE` (R29, 43_payload_decoder.md R164): nine codes and their names. -/
def alarmType : List (Byte × String) :=
  [(0#8, "Integra 24"), (1#8, "Integra 32"), (2#8, "Integra 64"), (3#8, "Integra 128"),
   (4#8, "INTEGRA 128-WRL SIM300"), (66#8, "INTEGRA 64 PLUS"), (67#8, "INTEGRA 128 PLUS"),
   (72#8, "INTEGRA 256 PLUS"), (132#8, "INTEGRA 128-WRL LEON")]

/-- `LANGUAGE` (R29, 43_payload_decoder.md R167): three codes and their names. -/
def language : List (Byte × String) :=
  [(1#8, "English"), (6#8, "Italian"), (9#8, "Dutch")]

/-- `VERSION_PATTERN` (R29), `"%s.%s%s %s%s%s%s-%s%s-%s%s"`: `none` is a place `%s`, `some c` the
ASCII character `c` (`.` is 2E, space 20, `-` 2D; 43_payload_decoder.md R168). -/
def versionPattern : List (Option Byte) :=
  [none, some 0x2E#8, none, none, some 0x20#8, none, none, none, none,
   some 0x2D#8, none, none, some 0x2D#8, none, none]

end Sys2Proof.Config
end

