-- ==== Sys2Proof/WellFormed.lean ====
section
/-! DEFINITION. Well-formed instructions: what the operand fields of 30_encoding.md R64 can carry. -/

namespace Sys2Proof

/-- A length or count a 16-bit field (`LEN`, `NB`, `CNT`; R64) can carry. -/
def fits16 (n : Nat) : Bool := n < 65536

/-- R66: an `OPB` with `RSV != 0` or `OP >= 0xA`. -/
def reservedOpb (opb : Byte) : Bool :=
  opb.extractLsb' 4 4 != 0#4 || 0xA ≤ (opb.extractLsb' 0 4).toNat

/-- An instruction whose fields the encoding of R64 can carry: lengths and counts fit 16 bits, a
reserved `OPB` is reserved (R66), and the command byte of `payloadOther` is neither `7E` nor `0A`
(R163). A payload is carried by a `PL.DECODE` request, so its whole length fits `LEN`. -/
def Instr.wellFormed : Instr → Bool
  | .ckInit => true
  | .ckStep _ => true
  | .ckRead => true
  | .ckCompute seq => fits16 seq.length
  | .frBuild _ data => fits16 data.length
  | .frParse bytes => fits16 bytes.length
  | .frExtract _ data => fits16 data.length
  | .plDecode payload => fits16 payload.length
  | .zbUnpack data => fits16 data.length
  | .zbPack nb ps => fits16 nb && fits16 ps.length
  | .illegalOp opb => reservedOpb opb
  | .payload7E rest => fits16 (rest.length + 1)
  | .payload0A data => fits16 (data.length + 1)
  | .payloadOther cmd rest =>
    cmd != Config.cmdDevInfo && cmd != Config.cmdZones && fits16 (rest.length + 1)

end Sys2Proof
end

