-- ==== Sys2Proof/Decode.lean ====
section
/-! DEFINITION. The byte order of every multi-byte field (20_memory.md R43), the request decoder
(30_encoding.md R60, R62, R64, R66), the payload dispatch (43_payload_decoder.md R160), and the encoder
written from the same tables. -/

namespace Sys2Proof

/-- `hi8(w) = w[15:8]` (R11). -/
def hi8 (w : Word16) : Byte := w.extractLsb' 8 8

/-- `lo8(w) = w[7:0]` (R11). -/
def lo8 (w : Word16) : Byte := w.extractLsb' 0 8

/-- `be16(w) = [hi8(w), lo8(w)]` (R11): most significant byte first (R43). -/
def be16 (w : Word16) : List Byte := [hi8 w, lo8 w]

/-- `be32(v) = [v[31:24], v[23:16], v[15:8], v[7:0]]` (R11). -/
def be32 (v : Word32) : List Byte :=
  [v.extractLsb' 24 8, v.extractLsb' 16 8, v.extractLsb' 8 8, v.extractLsb' 0 8]

/-- A length or count as a 16-bit field (R11 `zext`, R43). -/
def be16n (n : Nat) : List Byte := be16 (BitVec.ofNat 16 n)

/-- A count or partition number as a 32-bit field (R11, R43). -/
def be32n (n : Nat) : List Byte := be32 (BitVec.ofNat 32 n)

/-- `rd16` (R11) on the two bytes it reads, the high byte first. -/
def rd16 (h l : Byte) : Word16 := h ++ l

/-- `rd32` (R11) on the four bytes it reads, the high byte first. -/
def rd32 (a b c d : Byte) : Word32 := (a ++ b) ++ (c ++ d)

/-- `s[i]` (R10). Every rule that could read past the end checks the length first (R40), so the
value past the end is never used (log entry 10). -/
def byteAt (s : List Byte) (i : Nat) : Byte := s.getD i 0#8

/-- `RSV`, bits 7:4 of `OPB` (R62). -/
def opbRsv (opb : Byte) : BitVec 4 := opb.extractLsb' 4 4

/-- `OP`, bits 3:0 of `OPB` (R62). -/
def opbOp (opb : Byte) : BitVec 4 := opb.extractLsb' 0 4

/-- Why a byte sequence does not yet begin with a complete request (R60). -/
inductive Missing where
  /-- The sequence is empty: no `OPB`. -/
  | opb
  /-- A byte of `B`, `CMD` or of a length field is still to come. -/
  | fields
  /-- The length fields are there and call for more operand bytes. -/
  | operands
deriving DecidableEq, Repr

/-- What the decoder reads from a byte sequence: a complete request with the bytes after it, or the
reason why the request is not complete (R60). An illegal `OPB` is a complete request (R66). -/
inductive Decoded where
  | request (i : Instr) (rest : List Byte)
  | incomplete (why : Missing)
deriving DecidableEq, Repr

/-- The operand form `B` (R64): one byte. -/
def readByte (mk : Byte → Instr) : List Byte → Decoded
  | b :: bs => .request (mk b) bs
  | [] => .incomplete .fields

/-- The operand form `LEN`, `SEQ[LEN]` (R64). -/
def readSeq (mk : List Byte → Instr) : List Byte → Decoded
  | h :: l :: bs =>
    if (rd16 h l).toNat ≤ bs.length then
      .request (mk (bs.take (rd16 h l).toNat)) (bs.drop (rd16 h l).toNat)
    else .incomplete .operands
  | _ => .incomplete .fields

/-- The operand form `CMD`, `LEN`, `DATA[LEN]` (R64). -/
def readCmdSeq (mk : Byte → List Byte → Instr) : List Byte → Decoded
  | cmd :: bs => readSeq (mk cmd) bs
  | [] => .incomplete .fields

/-- The first `n` 32-bit numbers of a byte sequence (R64: `P[i] = rd32(request, 5 + 4*i)`). -/
def readWords : Nat → List Byte → List Word32
  | n + 1, a :: b :: c :: d :: bs => rd32 a b c d :: readWords n bs
  | _, _ => []

/-- The operand form `NB`, `CNT`, `P[0] .. P[CNT-1]` (R64). The request ends where `CNT` says, whatever
`NB` is, although 70_reset_and_hazards.md R236 lists a wrong `NB` among what shifts later request
boundaries (DEDUCED; log entry 12). -/
def readPack (mk : Nat → List Word32 → Instr) : List Byte → Decoded
  | nh :: nl :: ch :: cl :: bs =>
    if 4 * (rd16 ch cl).toNat ≤ bs.length then
      .request (mk (rd16 nh nl).toNat (readWords (rd16 ch cl).toNat bs))
        (bs.drop (4 * (rd16 ch cl).toNat))
    else .incomplete .operands
  | _ => .incomplete .fields

/-- The operand form and operation that `OP` selects (R63, R64); `opb` is the whole `OPB`, which a
reserved `OP` reports (R66). -/
def readOp (opb : Byte) : Nat → List Byte → Decoded
  | 0x0, bs => .request .ckInit bs
  | 0x1, bs => readByte .ckStep bs
  | 0x2, bs => .request .ckRead bs
  | 0x3, bs => readSeq .ckCompute bs
  | 0x4, bs => readCmdSeq .frBuild bs
  | 0x5, bs => readSeq .frParse bs
  | 0x6, bs => readCmdSeq .frExtract bs
  | 0x7, bs => readSeq .plDecode bs
  | 0x8, bs => readSeq .zbUnpack bs
  | 0x9, bs => readPack .zbPack bs
  | _, bs => .request (.illegalOp opb) bs

/-- The request decoder (R60, R62, R63, R64), total on every byte sequence (R74). A legal `OPB` selects
the operation; any other is `IllegalOp` and a complete request of one byte (R66). -/
def decode : List Byte → Decoded
  | [] => .incomplete .opb
  | opb :: bs =>
    if opbRsv opb = 0#4 then readOp opb (opbOp opb).toNat bs else .request (.illegalOp opb) bs

/-- The payload dispatch (R160, R163) as a decoder of the payload command space (R72): the row a
payload belongs to. An empty payload has no command byte and belongs to none. -/
def decodePayload : List Byte → Option Instr
  | [] => none
  | cmd :: rest =>
    if cmd = Config.cmdDevInfo then some (.payload7E rest)
    else if cmd = Config.cmdZones then some (.payload0A rest)
    else some (.payloadOther cmd rest)

/-- The bytes of an instruction: of a request, its request bytes (R64); of a row of the payload command
space, its payload bytes (R72). -/
def encode : Instr → List Byte
  | .ckInit => [0x00#8]
  | .ckStep b => [0x01#8, b]
  | .ckRead => [0x02#8]
  | .ckCompute seq => 0x03#8 :: (be16n seq.length ++ seq)
  | .frBuild cmd data => 0x04#8 :: cmd :: (be16n data.length ++ data)
  | .frParse bytes => 0x05#8 :: (be16n bytes.length ++ bytes)
  | .frExtract cmd data => 0x06#8 :: cmd :: (be16n data.length ++ data)
  | .plDecode payload => 0x07#8 :: (be16n payload.length ++ payload)
  | .zbUnpack data => 0x08#8 :: (be16n data.length ++ data)
  | .zbPack nb ps => 0x09#8 :: (be16n nb ++ be16n ps.length ++ ps.flatMap be32)
  | .illegalOp opb => [opb]
  | .payload7E rest => Config.cmdDevInfo :: rest
  | .payload0A data => Config.cmdZones :: data
  | .payloadOther cmd rest => cmd :: rest

/-- The request that carries an instruction to the block: a row of the payload command space is carried
by `PL.DECODE` on its payload (R175); every other instruction is its own request. -/
def Instr.asRequest (i : Instr) : Instr :=
  if i.isRequest then i else .plDecode (encode i)

/-- The request length of R64, read from the fields of a sequence whose missing bytes count as zero. -/
def requestLength (bs : List Byte) : Nat :=
  if opbRsv (byteAt bs 0) = 0#4 then
    match (opbOp (byteAt bs 0)).toNat with
    | 0x1 => 2
    | 0x3 | 0x5 | 0x7 | 0x8 => 3 + (rd16 (byteAt bs 1) (byteAt bs 2)).toNat
    | 0x4 | 0x6 => 4 + (rd16 (byteAt bs 2) (byteAt bs 3)).toNat
    | 0x9 => 5 + 4 * (rd16 (byteAt bs 3) (byteAt bs 4)).toNat
    | _ => 1
  else 1

/-- The bytes of a word of spec/opcode_table.json: bit 0 of the word is bit 0 of the first byte. -/
def tableBytes (nbits w : Nat) : List Byte :=
  (List.range (nbits / 8)).map (fun k => BitVec.ofNat 8 (w >>> (8 * k)))

/-- The whole request that begins with a table word, every byte the word does not give being zero. -/
def tableRequest (nbits w : Nat) : List Byte :=
  let bs := tableBytes nbits w
  (bs ++ List.replicate (requestLength bs) 0#8).take (requestLength bs)

/-- The instruction the decoder reads from a table word (operand bytes above the word are zero). -/
def decodeTableWord (nbits w : Nat) : Option Instr :=
  match decode (tableRequest nbits w) with
  | .request i _ => some i
  | .incomplete _ => none

end Sys2Proof
end

