-- ==== Sys2Proof/Machine/Operands.lean ====
section
/-! DEFINITION. Byte sequences as operands and results (00_scope.md R10, R11; 30_encoding.md R64, R68):
slices, big-endian fields inside a sequence, and the length and count forms of results. -/

namespace Sys2Proof.Machine

/-- `s[i .. j)` (R10), the half-open slice. -/
def slice (s : List Byte) (i j : Nat) : List Byte := (s.take j).drop i

/-- `rd16(s, i)` (R11). -/
def rd16At (s : List Byte) (i : Nat) : Word16 := rd16 (byteAt s i) (byteAt s (i + 1))

/-- A byte-sequence result with its length, `be16(len(r)) ++ r` (R68, R71). -/
def withLength (r : List Byte) : List Byte := be16n r.length ++ r

/-- A list of partition numbers with its count, `be32(n) ++ be32(z[0]) ++ ... ++ be32(z[n-1])` (R70). -/
def withCount (z : List Nat) : List Byte := be32n z.length ++ z.flatMap be32n

end Sys2Proof.Machine
end

