-- ==== Sys2Proof/Machine/State.lean ====
section
/-! DEFINITION. The state of the block (10_state.md R20) and, beside it, the host agent the block
exchanges bytes with (00_scope.md R4), as plain data; the reasons a step can stop; the state after
reset (R32). -/

namespace Sys2Proof.Machine

/-- What the environment does next at the block's ports and reset input (R4, R22, R23, R230). A `State`
holds the environment's remaining acts as a list, which also fixes the interleaving (log entry 3). -/
inductive HostAct where
  /-- The host writes one byte to the request port (R22). -/
  | write (b : Byte)
  /-- The host reads one byte from the response port (R23). -/
  | read
  /-- The environment asserts the reset input (R230). -/
  | rst
  /-- The host does nothing for one step: it leaves the block its turn before a later `rst`. -/
  | idle
deriving DecidableEq, Repr

/-- The block and its host. `acc`, `rqb` with `rqbLater`, and `rsq` are the whole state of the block
(R20); `script` and `received` are the host's side of the ports (R4; log entry 3).

`RQB` is held in two parts, because the spec says two things of it (log entry 4): it "never holds more
than one complete request" and an executed request leaves it `[]` (R22), which is said of `rqb`; and
later complete requests "wait in `RQB`" behind a held one (R239), which is said of `rqbLater`. `RQB` is the two
together, and `rqbLater` is empty unless the host has written during a hold. -/
structure State where
  /-- `ACC`, the 16-bit accumulator (R21). -/
  acc : Word16
  /-- `RQB`, the bytes of the request being received, oldest first (R22). -/
  rqb : List Byte
  /-- The rest of `RQB`: the later requests, oldest first, that wait behind a request that unread
  response bytes hold (R239; log entry 4). Empty where no request has been held. -/
  rqbLater : List Byte
  /-- `RSQ`, the response bytes not yet read, oldest first (R23). -/
  rsq : List Byte
  /-- What the environment still does, in order. -/
  script : List HostAct
  /-- What the host has read from the response port so far, oldest first (R23: a read returns
  `RSQ[0]`). -/
  received : List Byte
deriving DecidableEq, Repr

/-- The block stops with no fault: every failure is an error status in a response (60_exceptions.md,
its opening, and R204), and a wait is no fault (R23). There is no constructor. -/
inductive Fault where
deriving DecidableEq, Repr

/-- The reasons a step can be refused. -/
inductive Refusal where
  /-- An instruction without a meaning in this model, raised by an arm of `exec` that says so. No arm
  does. Safe: the machine stops. -/
  | notModelled (mnemonic : String)
deriving DecidableEq, Repr

/-- The state after reset (R32, R231): `ACC = INIT`, `RQB` and `RSQ` empty. The host's side of the
ports is empty: nothing is written, scripted or read yet (log entry 5). -/
def State.reset : State where
  acc := Config.init
  rqb := []
  rqbLater := []
  rsq := []
  script := []
  received := []

end Sys2Proof.Machine
end

