-- ==== Sys2Proof/Machine/Ops.lean ====
section
/-! DEFINITION. The shared operations over the state: writing `ACC`, ending a request with its response,
raising an error status (60_exceptions.md R203), the length limit (30_encoding.md R65) and reset
(70_reset_and_hazards.md R231). The block has no memory (20_memory.md R40). -/

namespace Sys2Proof.Machine

/-- The answer of a meaning or a step. -/
abbrev Answer := Host.Outcome State Fault Refusal

/-- `ACC <- v` (R12). -/
def State.setAcc (s : State) (v : Word16) : State := { s with acc := v }

/-- `RQB <- []`: the executed request leaves the buffer (R22, R47). -/
def State.retire (s : State) : State := { s with rqb := [] }

/-- `respond(st, r)` (R12): the whole response goes to the tail of `RSQ` (R23, R61). -/
def State.respond (s : State) (st : Status) (r : List Byte) : State :=
  { s with rsq := s.rsq ++ st.code :: r }

/-- The end of a request: it leaves `RQB` and its one response is queued (R47, R61). -/
def finish (st : Status) (r : List Byte) (s : State) : Answer := .next (s.retire.respond st r)

/-- A request that succeeds: `respond(OK, r)`. -/
def respondOk (r : List Byte) (s : State) : Answer := finish .ok r s

/-- `raise S(info)` (R203): the operation ends at once with status `S`. The only effects are
`RQB <- []` and the response; nothing is saved, no mode changes and control goes nowhere (R204), and
there is no return operation (R205). -/
def raise (st : Status) (info : List Byte) (s : State) : Answer := finish st info s

/-- The length limit (R65), checked before the operation's own checks (R202). -/
def limited (n : Nat) (body : State → Answer) (s : State) : Answer :=
  if Config.maxLen < n then raise .overlength [] s else body s

/-- Reset of the block (R231): `ACC <- 0x147A; RQB <- []; RSQ <- []`, all of `RQB`. The host's script and what it has
read are its own. -/
def State.resetBlock (s : State) : State :=
  { s with
    acc := State.reset.acc
    rqb := State.reset.rqb
    rqbLater := State.reset.rqbLater
    rsq := State.reset.rsq }

end Sys2Proof.Machine
end

