-- ==== Sys2Proof/Machine/Checksum.lean ====
section
/-! DEFINITION. CKE, the checksum engine (41_checksum.md): the algorithm (R100 to R105) and the
operations `CK.INIT`, `CK.STEP`, `CK.READ` and `CK.COMPUTE` (R108 to R111). -/

namespace Sys2Proof.Machine

/-- `rotl16(c) = ((c << 1) & 0xFFFF) | ((c & 0x8000) >> 15)` (R100). -/
def rotl16 (c : Word16) : Word16 := (c <<< 1) ||| ((c &&& 0x8000#16) >>> 15)

/-- `inv16(c) = c ^ 0xFFFF` (R101). -/
def inv16 (c : Word16) : Word16 := c ^^^ 0xFFFF#16

/-- `addh(c, b) = (c + (c >> 8) + b) & 0xFFFF` (R102): an unbounded sum, then cut to 16 bits. -/
def addh (c : Word16) (b : Byte) : Word16 :=
  BitVec.ofNat 16 (c.toNat + (c.toNat >>> 8) + b.toNat)

/-- `ck_step(c, b)` (R103). -/
def ckStep (c : Word16) (b : Byte) : Word16 := addh (inv16 (rotl16 c)) b

/-- `compute(s) = foldl(ck_step, INIT, s)` (R104). -/
def compute (s : List Byte) : Word16 := s.foldl ckStep Config.init

/-- `CK.INIT` (R108). -/
def execCkInit (s : State) : Answer := respondOk [] (s.setAcc Config.init)

/-- `CK.STEP b` (R109). -/
def execCkStep (b : Byte) (s : State) : Answer := respondOk [] (s.setAcc (ckStep s.acc b))

/-- `CK.READ` (R110). -/
def execCkRead (s : State) : Answer := respondOk (be16 s.acc) s

/-- `CK.COMPUTE [seq]` (R111). -/
def execCkCompute (seq : List Byte) (s : State) : Answer :=
  limited seq.length (respondOk (be16 (compute seq))) s

end Sys2Proof.Machine
end

