-- ==== Sys2Proof/Machine/FrameCodec.lean ====
section
/-! DEFINITION. FRC, the frame codec (42_frame_codec.md): `buildFrame`, `parseFrame` and
`extractPayload` (R130 to R140) and the operations `FR.BUILD`, `FR.PARSE` and `FR.EXTRACT` (R141 to
R143). -/

namespace Sys2Proof.Machine

/-- A parsed frame (R138). -/
structure Frame where
  command : Byte
  data : List Byte
deriving DecidableEq, Repr

/-- Why a byte sequence is no frame (R134 to R138). -/
inductive FrameError where
  | tooShort
  | badHeader
  | badFooter
  | checksumMismatch
deriving DecidableEq, Repr

/-- The status of a frame error (30_encoding.md R67). -/
def FrameError.status : FrameError → Status
  | .tooShort => .tooShort
  | .badHeader => .badHeader
  | .badFooter => .badFooter
  | .checksumMismatch => .checksumMismatch

/-- `buildFrame(command, data)` (R132). The checksum covers the interior only (R131). -/
def buildFrame (command : Byte) (data : List Byte) : List Byte :=
  Config.header ++ [command] ++ data ++ be16 (compute (command :: data)) ++ Config.footer

/-- `parseFrame(bytes)` (R139): the checks in the order of R134 to R138, the first failure deciding. -/
def parseFrame (bytes : List Byte) : Except FrameError Frame :=
  if bytes.length < 6 then .error .tooShort
  else if slice bytes 0 2 ≠ Config.header then .error .badHeader
  else if slice bytes (bytes.length - 2) bytes.length ≠ Config.footer then .error .badFooter
  else if rd16At bytes (bytes.length - 4) ≠ compute (slice bytes 2 (bytes.length - 4)) then
    .error .checksumMismatch
  else
    match slice bytes 2 (bytes.length - 4) with
    | [] => .error .tooShort
    | command :: data => .ok { command := command, data := data }

/-- `extractPayload(frame) = [frame.command] ++ frame.data` (R140). -/
def extractPayload (f : Frame) : List Byte := f.command :: f.data

/-- `FR.BUILD cmd, [data]` (R141). The frame result has `LEN + 7` bytes (R65, R133). -/
def execFrBuild (cmd : Byte) (data : List Byte) (s : State) : Answer :=
  limited (data.length + 7) (respondOk (withLength (buildFrame cmd data))) s

/-- The response of `FR.PARSE` to a parse result (R142): a failure carries no data (R206). -/
def respondParsed (r : Except FrameError Frame) (s : State) : Answer :=
  match r with
  | .error e => raise e.status [] s
  | .ok f => respondOk (f.command :: withLength f.data) s

/-- `FR.PARSE [bytes]` (R142). -/
def execFrParse (bytes : List Byte) (s : State) : Answer :=
  limited bytes.length (respondParsed (parseFrame bytes)) s

/-- `FR.EXTRACT cmd, [data]` (R143). -/
def execFrExtract (cmd : Byte) (data : List Byte) (s : State) : Answer :=
  limited (data.length + 1)
    (respondOk (withLength (extractPayload { command := cmd, data := data }))) s

end Sys2Proof.Machine
end

