-- ==== Sys2Proof/Machine/PayloadDecoder.lean ====
section
/-! DEFINITION. PLD, the payload decoder and zone-bitmap unit (43_payload_decoder.md): lookups, the
version string, the two payload decoders, unpacking and packing of bitmaps, and the operations
`PL.DECODE`, `ZB.UNPACK` and `ZB.PACK` (R175 to R178) with the three rows of the payload command
space. -/

namespace Sys2Proof.Machine

/-- The result of a table lookup (R162). `named` keeps the code beside the name, as the block's
encoding sends the code (30_encoding.md R69; log entry 9). -/
inductive Lookup where
  | named (code : Byte) (name : String)
  | unknown (code : Byte)
deriving DecidableEq, Repr

/-- `lookup(T, v)` (R162). -/
def lookupIn (t : List (Byte × String)) (v : Byte) : Lookup :=
  match t.lookup v with
  | some name => .named v name
  | none => .unknown v

/-- The code byte of a lookup: `T` or `L` of R69. -/
def Lookup.code : Lookup → Byte
  | .named v _ => v
  | .unknown v => v

/-- The known flag of a lookup: `TK` or `LK` of R69. -/
def Lookup.flag : Lookup → Byte
  | .named _ _ => 0x01#8
  | .unknown _ => 0x00#8

/-- `render(v)` (R168): the ASCII digit for 0 to 9, else the OPEN parameter `RENDER_DIGIT`. -/
def render (v : Byte) : List Byte :=
  if v.toNat ≤ 9 then [0x30#8 + v] else Config.renderDigit v

/-- The renderings of `ds` substituted in order into a pattern (R168). -/
def substitute : List (Option Byte) → List Byte → List Byte
  | [], _ => []
  | some c :: pat, ds => c :: substitute pat ds
  | none :: pat, d :: ds => render d ++ substitute pat ds
  | none :: pat, [] => substitute pat []

/-- The version string of the 11 version bytes (R168), one ASCII byte a character (R69). -/
def version (ds : List Byte) : List Byte := substitute Config.versionPattern ds

/-- The numbers of the bits that are 1 in one byte, bit 0 first, `p` counting the bits before it
(R172). -/
def byteZones (p : Nat) (b : Byte) : List Nat :=
  (List.range 8).filterMap (fun k => if b.getLsbD k then some (p + k + 1) else none)

/-- The loop of R172 over the bytes, from the running counter `p`. -/
def zonesFrom (p : Nat) : List Byte → List Nat
  | [] => []
  | b :: bs => byteZones p b ++ zonesFrom (p + 8) bs

/-- `zone_unpack(data)` (R172): bit `k` of byte `j` is partition `8*j + k + 1` (20_memory.md R44). -/
def zoneUnpack (data : List Byte) : List Nat := zonesFrom 0 data

/-- R177: a partition number 0 or above `8*NB`. -/
def badPartition (nb : Nat) (p : Word32) : Bool := p.toNat = 0 || 8 * nb < p.toNat

/-- One round of the loop of R177: set the bit of partition `p`, which has passed the check (log
entry 10). -/
def setZone (m : List Byte) (p : Word32) : List Byte :=
  m.modify ((p.toNat - 1) / 8) (fun x => x ||| (1#8 <<< ((p.toNat - 1) % 8)))

/-- `zone_pack(NB, P)` (R177) on partition numbers that pass its check. -/
def zonePack (nb : Nat) (ps : List Word32) : List Byte :=
  ps.foldl setZone (List.replicate nb 0x00#8)

/-- A decoded payload (R161). -/
inductive DecodedPayload where
  | deviceInfo (alarmType : Lookup) (version : List Byte) (language : Lookup)
  | zoneBitmap (zones : List Nat)
deriving DecidableEq, Repr

/-- A decode error, with the whole payload it carries (R161, R163). -/
inductive DecodeError where
  | unsupportedCommand (payload : List Byte)
  | malformedPayload (payload : List Byte)
deriving DecidableEq, Repr

/-- `decode7E(payload)` (R171): it fails only on length (R165), and reads nothing after index 13
(R170). -/
def decode7E (payload : List Byte) : Except DecodeError DecodedPayload :=
  if payload.length < 14 then .error (.malformedPayload payload)
  else .ok (.deviceInfo (lookupIn Config.alarmType (byteAt payload 1))
    (version (slice payload 2 13)) (lookupIn Config.language (byteAt payload 13)))

/-- `decode0A(payload)` (R174): it never fails. -/
def decode0A (payload : List Byte) : Except DecodeError DecodedPayload :=
  .ok (.zoneBitmap (zoneUnpack (payload.drop 1)))

/-- `decode(payload)` (R160), the dispatch on the command byte. -/
def decodeAny (payload : List Byte) : Except DecodeError DecodedPayload :=
  match payload with
  | [] => .error (.malformedPayload payload)
  | cmd :: _ =>
    if cmd = Config.cmdDevInfo then decode7E payload
    else if cmd = Config.cmdZones then decode0A payload
    else .error (.unsupportedCommand payload)

/-- The response of `PL.DECODE` to a decode result (R175, with the layouts of 30_encoding.md R69 to
R71). -/
def respondDecoded (r : Except DecodeError DecodedPayload) (s : State) : Answer :=
  match r with
  | .ok (.deviceInfo t v l) =>
    respondOk
      ([Config.cmdDevInfo, t.code, t.flag, l.code, l.flag, BitVec.ofNat 8 v.length] ++ v) s
  | .ok (.zoneBitmap z) => respondOk (Config.cmdZones :: withCount z) s
  | .error (.unsupportedCommand p) => raise .unsupportedCommand (withLength p) s
  | .error (.malformedPayload p) => raise .malformedPayload (withLength p) s

/-- `PL.DECODE [payload]` (R175). -/
def execPlDecode (payload : List Byte) (s : State) : Answer :=
  limited payload.length (respondDecoded (decodeAny payload)) s

/-- `PL.DECODE` on a `7E` payload (R171, R175). -/
def execPayload7E (rest : List Byte) (s : State) : Answer :=
  limited (rest.length + 1) (respondDecoded (decode7E (Config.cmdDevInfo :: rest))) s

/-- `PL.DECODE` on a `0A` payload (R174, R175). -/
def execPayload0A (data : List Byte) (s : State) : Answer :=
  limited (data.length + 1) (respondDecoded (decode0A (Config.cmdZones :: data))) s

/-- `PL.DECODE` on a payload with any other command byte (R163, R175). -/
def execPayloadOther (cmd : Byte) (rest : List Byte) (s : State) : Answer :=
  limited (rest.length + 1) (respondDecoded (.error (.unsupportedCommand (cmd :: rest)))) s

/-- `ZB.UNPACK [data]` (R176). -/
def execZbUnpack (data : List Byte) (s : State) : Answer :=
  limited data.length (respondOk (withCount (zoneUnpack data))) s

/-- The response of `ZB.PACK` within the length limit (R178). -/
def respondPacked (nb : Nat) (ps : List Word32) (s : State) : Answer :=
  if ps.any (badPartition nb) then raise .badOperand [] s
  else respondOk (be16n nb ++ zonePack nb ps) s

/-- `ZB.PACK nb, {p, ...}` (R178): `Overlength` is checked before `BadOperand`. -/
def execZbPack (nb : Nat) (ps : List Word32) (s : State) : Answer :=
  limited nb (respondPacked nb ps) s

end Sys2Proof.Machine
end

