-- ==== Sys2Proof/Machine/Reserved.lean ====
section
/-! DEFINITION. The reserved `OPB` space (30_encoding.md R66). -/

namespace Sys2Proof.Machine

/-- An illegal `OPB` (R66): `raise IllegalOp()`. The byte itself is not reported (60_exceptions.md
R201). -/
def execIllegalOp (_opb : Byte) (s : State) : Answer := raise .illegalOp [] s

end Sys2Proof.Machine
end

