-- ==== Sys2Proof/Machine/Dispatch.lean ====
section
/-! DEFINITION. One arm per constructor of `Instr`, each a direct call of its meaning. -/

namespace Sys2Proof.Machine

def exec (i : Instr) (s : State) : Host.Outcome State Fault Refusal :=
  match i with
  | .ckInit => Sys2Proof.Machine.execCkInit s
  | .ckStep b => Sys2Proof.Machine.execCkStep b s
  | .ckRead => Sys2Proof.Machine.execCkRead s
  | .ckCompute seq => Sys2Proof.Machine.execCkCompute seq s
  | .frBuild cmd data => Sys2Proof.Machine.execFrBuild cmd data s
  | .frParse bytes => Sys2Proof.Machine.execFrParse bytes s
  | .frExtract cmd data => Sys2Proof.Machine.execFrExtract cmd data s
  | .plDecode payload => Sys2Proof.Machine.execPlDecode payload s
  | .zbUnpack data => Sys2Proof.Machine.execZbUnpack data s
  | .zbPack nb ps => Sys2Proof.Machine.execZbPack nb ps s
  | .illegalOp opb => Sys2Proof.Machine.execIllegalOp opb s
  | .payload7E rest => Sys2Proof.Machine.execPayload7E rest s
  | .payload0A data => Sys2Proof.Machine.execPayload0A data s
  | .payloadOther cmd rest => Sys2Proof.Machine.execPayloadOther cmd rest s

end Sys2Proof.Machine
end

