-- ==== Sys2Proof/Machine/Port.lean ====
section
/-! DEFINITION. The ports and who moves next (10_state.md R22 to R24; 30_encoding.md R60;
70_reset_and_hazards.md R230): host writes and reads, reset, and when the block executes. -/

namespace Sys2Proof.Machine

/-- The act of the environment asserts reset. -/
def HostAct.isRst : HostAct → Bool
  | .rst => true
  | .write _ | .read | .idle => false

/-- `RQB` holds the complete request that is next to execute (R60). -/
def State.complete (s : State) : Bool :=
  match decode s.rqb with
  | .request _ _ => true
  | .incomplete _ => false

/-- All of `RQB`: the request being received and the later requests behind it (log entry 4). -/
def State.wholeRqb (s : State) : List Byte := s.rqb ++ s.rqbLater

/-- A host write (R22): the block appends the byte to `RQB`. It belongs to the request being received,
or, behind a complete request or other later bytes, to the later requests that wait in `RQB` (R239; log
entry 4). -/
def State.hostWrite (s : State) (b : Byte) : State :=
  if s.complete || !s.rqbLater.isEmpty then { s with rqbLater := s.rqbLater ++ [b] }
  else { s with rqb := s.rqb ++ [b] }

/-- A host read (R23): it returns `RSQ[0]` and removes it. From an empty `RSQ` there is no byte to
return. -/
def State.hostRead (s : State) : State :=
  match s.rsq with
  | [] => s
  | b :: bs => { s with rsq := bs, received := s.received ++ [b] }

/-- The environment's next act is done, and leaves the script. -/
def State.hostAct (s : State) : State :=
  match s.script with
  | [] => s
  | .write b :: q => ({ s with script := q }).hostWrite b
  | .read :: q => ({ s with script := q }).hostRead
  | .rst :: q => ({ s with script := q }).resetBlock
  | .idle :: q => { s with script := q }

/-- The oldest byte of the later requests comes up to the request being received, when the request
before it has executed (R22, R239). All of `RQB` stays what it is. -/
def State.advance (s : State) : State :=
  match s.rqbLater with
  | [] => s
  | b :: bs => { s with rqb := s.rqb ++ [b], rqbLater := bs }

/-- Bytes that follow the complete request in `rqb` belong to the later requests. There are none in a run
(R22: no more than one complete request, which executes as soon as it is complete). -/
def State.setApart (s : State) (rest : List Byte) : State := { s with rqbLater := rest ++ s.rqbLater }

/-- Who moves next. -/
inductive Move where
  /-- The environment's next act is done. -/
  | host
  /-- A byte of the later requests comes up to the request being received. -/
  | advance
  /-- The block executes the request in `rqb`; `rest` are bytes after it, none in a run. -/
  | execute (i : Instr) (rest : List Byte)
  /-- Nothing can move: the block waits for request bytes (R60) or for a host read (R24), and so does a
  host that reads from an empty `RSQ` (R23). -/
  | wait
deriving DecidableEq, Repr

/-- The environment's move where the block has none: the next act, unless there is none or it is a read
from an empty `RSQ`, which waits (R23). -/
def State.hostMove (s : State) : Move :=
  match s.script with
  | [] => .wait
  | .read :: _ => if s.rsq.isEmpty then .wait else .host
  | .write _ :: _ => .host
  | .rst :: _ => .host
  | .idle :: _ => .host

/-- The block's own move, if it has one: a complete request executes as soon as it is complete (R22),
but only while `RSQ = []` (R24); an incomplete one waits for more bytes (R60), which come from the later
requests where some wait. -/
def State.blockMove (s : State) : Move :=
  match decode s.rqb with
  | .request i rest => if s.rsq.isEmpty then .execute i rest else s.hostMove
  | .incomplete _ => if s.rqbLater.isEmpty then s.hostMove else .advance

/-- Who moves next. Reset may fall between any two steps (R230), so a `rst` that is next comes before
the block's own move; otherwise the block moves if it can, else the host. -/
def State.nextMove (s : State) : Move :=
  match s.script with
  | .rst :: _ => .host
  | [] => s.blockMove
  | .write _ :: _ => s.blockMove
  | .read :: _ => s.blockMove
  | .idle :: _ => s.blockMove

/-- `s` with one request in `RQB`, so that the next step executes it: `RSQ` is read out (R24) and no
reset is next. -/
def State.placeRequest (s : State) (request : List Byte) : State :=
  { s with rqb := request, rsq := [], script := s.script.dropWhile HostAct.isRst }

end Sys2Proof.Machine
end

