-- ==== Sys2Proof/Machine/Step.lean ====
section
/-! DEFINITION. One step of the block and its host. -/

namespace Sys2Proof.Machine

/-- One step: the environment acts, a waiting byte comes up in `RQB`, or the block executes the request in
`RQB` as one indivisible step (20_memory.md R47). Where nothing can move the state stays as it is: the wait
is no fault (10_state.md R23; log entry 6). -/
def step (s : State) : Host.Outcome State Fault Refusal :=
  match s.nextMove with
  | .host => .next s.hostAct
  | .advance => .next s.advance
  | .execute i rest => exec i (s.setApart rest)
  | .wait => .next s

/-- `s` with the request that a word of spec/opcode_table.json begins placed in `RQB` (the host's
interface; log entry 7), so that the next step executes exactly it. -/
def State.withFetchWord (s : State) (nbits w : Nat) : State := s.placeRequest (tableRequest nbits w)

end Sys2Proof.Machine
end

