-- ==== Sys2Proof/Assembly.lean ====
section
/-! DEFINITION. The assembler language (30_encoding.md R75) and the pseudo-operations (R76). An
instruction is an assembler line already read, and `encode` is what the line assembles to; `asmLine`
writes the line. -/

namespace Sys2Proof

/-- `CK.SEQ [b1 ... bn]` (R76). -/
def ckSeq (bs : List Byte) : List Instr := .ckInit :: bs.map .ckStep

/-- `FR.REQ cmd` (R76). -/
def frReq (cmd : Byte) : Instr := .frBuild cmd []

/-- A hex digit. -/
def hexDigit (n : Nat) : Char := if n < 10 then Char.ofNat (0x30 + n) else Char.ofNat (0x37 + n)

/-- A byte as a hex pair. -/
def hexPair (b : Byte) : String :=
  String.ofList [hexDigit (b.toNat / 16), hexDigit (b.toNat % 16)]

/-- A byte operand as R75 writes it, `0x..`. -/
def hexNumber (b : Byte) : String := "0x" ++ hexPair b

/-- A byte sequence as R75 writes it, `[b0 b1 ...]`. -/
def asmSeq (bs : List Byte) : String := "[" ++ " ".intercalate (bs.map hexPair) ++ "]"

/-- A partition list as R75 writes it, in braces (characters 7B and 7D). -/
def asmList (ps : List Word32) : String :=
  String.singleton (Char.ofNat 0x7B) ++ ", ".intercalate (ps.map (fun p => toString p.toNat)) ++
    String.singleton (Char.ofNat 0x7D)

/-- The assembler line of an instruction (R75; log entry 11). A row of the payload command space is no request; its
line is that of the `PL.DECODE` that carries it. -/
def asmLine : Instr → String
  | .ckInit => "CK.INIT"
  | .ckStep b => "CK.STEP " ++ hexNumber b
  | .ckRead => "CK.READ"
  | .ckCompute seq => "CK.COMPUTE " ++ asmSeq seq
  | .frBuild cmd data => "FR.BUILD " ++ hexNumber cmd ++ ", " ++ asmSeq data
  | .frParse bytes => "FR.PARSE " ++ asmSeq bytes
  | .frExtract cmd data => "FR.EXTRACT " ++ hexNumber cmd ++ ", " ++ asmSeq data
  | .plDecode payload => "PL.DECODE " ++ asmSeq payload
  | .zbUnpack data => "ZB.UNPACK " ++ asmSeq data
  | .zbPack nb ps => "ZB.PACK " ++ toString nb ++ ", " ++ asmList ps
  | .illegalOp opb => ".byte " ++ hexNumber opb
  | .payload7E rest => "PL.DECODE " ++ asmSeq (encode (.payload7E rest))
  | .payload0A data => "PL.DECODE " ++ asmSeq (encode (.payload0A data))
  | .payloadOther cmd rest => "PL.DECODE " ++ asmSeq (encode (.payloadOther cmd rest))

end Sys2Proof
end

