-- ==== Sys2Proof/Safety.lean ====
section
/-! DEFINITION. The terms claims are stated in: the invariant of a run, a run at rest, the shape of an
answered request, and the sizes the length limit compares. -/

namespace Sys2Proof.Machine

/-- The state after a request that changes no `ACC` and answers status byte `st` and result `r`: the
request has left `RQB`, the response is at the tail of `RSQ`, and all else is as before. -/
def State.answered (s : State) (st : Byte) (r : List Byte) : State :=
  { s with rqb := [], rsq := s.rsq ++ st :: r }

/-- No reset is the environment's next act. -/
def State.noReset (s : State) : Prop := ∀ q, s.script ≠ .rst :: q

/-- R22: "`RQB` never holds more than one complete request", and no byte after it but the later requests
of R239 (log entry 4). -/
def State.oneRequest (s : State) : Prop := ∀ i rest, decode s.rqb = .request i rest → rest = []

/-- A byte sequence that is the whole response of some well-formed request (R61). -/
def IsResponse (r : List Byte) : Prop :=
  ∃ i acc t, i.wellFormed ∧ i.isRequest ∧
    exec i { State.reset with acc := acc } = .next t ∧ t.rsq = r

/-- R24: "one executed request has at most one unread response": what is unread is the end of one
response. -/
def State.oneResponse (s : State) : Prop := ∃ r, IsResponse r ∧ s.rsq <:+ r

/-- The invariant of every run: at most one request in `RQB` (R22) and at most one unread response in
`RSQ` (R24). -/
def State.Inv (s : State) : Prop := s.oneRequest ∧ s.oneResponse

/-- R242: `RQB` holds no complete request and `RSQ` is empty. -/
def State.atRest (s : State) : Prop :=
  (∃ why, decode s.rqb = .incomplete why) ∧ s.rqbLater = [] ∧ s.rsq = []

/-- Requests executed one after another (R49). -/
def execAll : List Instr → State → Answer
  | [], s => .next s
  | i :: is, s =>
    match exec i s with
    | .next t => execAll is t
    | .fault r => .fault r
    | .refused r => .refused r

/-- `k` steps of the block and its host. -/
def runFor : Nat → State → Answer
  | 0, s => .next s
  | k + 1, s =>
    match step s with
    | .next t => runFor k t
    | .fault r => .fault r
    | .refused r => .refused r

/-- The two operations that write `ACC` (R21). -/
def writesAcc : Instr → Bool
  | .ckInit => true
  | .ckStep _ => true
  | .ckRead | .ckCompute _ | .frBuild _ _ | .frParse _ | .frExtract _ _ | .plDecode _ | .zbUnpack _
  | .zbPack _ _ | .illegalOp _ | .payload7E _ | .payload0A _ | .payloadOther _ _ => false

/-- The length that R65 compares with `MAX_LEN`, for the operations that have one. -/
def limitedLength : Instr → Option Nat
  | .ckInit | .ckStep _ | .ckRead | .illegalOp _ => none
  | .ckCompute seq => some seq.length
  | .frBuild _ data => some (data.length + 7)
  | .frParse bytes => some bytes.length
  | .frExtract _ data => some (data.length + 1)
  | .plDecode payload => some payload.length
  | .zbUnpack data => some data.length
  | .zbPack nb _ => some nb
  | .payload7E rest => some (rest.length + 1)
  | .payload0A data => some (data.length + 1)
  | .payloadOther _ rest => some (rest.length + 1)

/-- The status bytes an operation can answer (R67, R68). -/
def allowedStatus : Instr → List Byte
  | .ckInit | .ckStep _ | .ckRead => [0x00#8]
  | .ckCompute _ | .frBuild _ _ | .frExtract _ _ | .zbUnpack _ => [0x00#8, 0x82#8]
  | .frParse _ => [0x00#8, 0x01#8, 0x02#8, 0x03#8, 0x04#8, 0x82#8]
  | .plDecode _ => [0x00#8, 0x11#8, 0x12#8, 0x82#8]
  | .zbPack _ _ => [0x00#8, 0x82#8, 0x83#8]
  | .illegalOp _ => [0x81#8]
  | .payload7E _ => [0x00#8, 0x12#8, 0x82#8]
  | .payload0A _ => [0x00#8, 0x82#8]
  | .payloadOther _ _ => [0x11#8, 0x82#8]

end Sys2Proof.Machine
end

