-- ==== Sys2Proof/Certificates/Slice0/Obligations.lean ====
section
/-! DEFINITION. The statements for the provers, from the numbered rules of spec/. -/

open Sys2Proof Sys2Proof.Machine

/-! ### Encoding -/

/-- R60, R62 to R64, R66: the decoder reads back every well-formed request from its bytes, whatever
bytes follow. -/
def Obligations.DecodeReadsEncodedRequest : Prop :=
  ∀ i : Instr, i.wellFormed → i.isRequest →
    ∀ rest, decode (encode i ++ rest) = .request i rest

/-- R74: each complete request has one reading, and its bytes are the encoding of what is read. -/
def Obligations.DecodedBytesAreTheEncoding : Prop :=
  ∀ bs i rest, decode bs = .request i rest →
    i.wellFormed ∧ i.isRequest ∧ bs = encode i ++ rest

/-- R74: every finite request byte stream is a sequence of complete requests, then at most one
incomplete beginning of a request; the requests are determined by the bytes; a reserved `RSV` or `OP`
value always raises `IllegalOp`. -/
def Obligations.RequestStreamSplitsIntoRequests : Prop :=
  (∀ bs : List Byte, ∃ (is : List Instr) (tail : List Byte),
    (∀ i ∈ is, i.wellFormed ∧ i.isRequest) ∧ bs = is.flatMap encode ++ tail ∧
    (∃ why, decode tail = .incomplete why) ∧
    (∃ j more, j.wellFormed ∧ j.isRequest ∧ more ≠ [] ∧ tail ++ more = encode j)) ∧
  (∀ (is js : List Instr) (t u : List Byte) (v w : Missing),
    (∀ i ∈ is, i.wellFormed ∧ i.isRequest) → (∀ j ∈ js, j.wellFormed ∧ j.isRequest) →
    decode t = .incomplete v → decode u = .incomplete w →
    is.flatMap encode ++ t = js.flatMap encode ++ u → is = js ∧ t = u) ∧
  (∀ (opb : Byte) (rest : List Byte) (s : State),
    opb.extractLsb' 4 4 ≠ 0#4 ∨ 0xA ≤ (opb.extractLsb' 0 4).toNat →
    decode (opb :: rest) = .request (.illegalOp opb) rest ∧
    exec (.illegalOp opb) s = .next (s.answered 0x81#8 []))

/-- R66: an `OPB` with `RSV != 0` or `OP >= 0xA`, and no other, is a complete request of one byte read
as `IllegalOp`; it changes no state but the response, the single byte `0x81`; the next byte is read as
the `OPB` of the next request. -/
def Obligations.IllegalOpbIsOneByteRequest : Prop :=
  ∀ (opb : Byte) (rest : List Byte) (s : State),
    ((opb.extractLsb' 4 4 ≠ 0#4 ∨ 0xA ≤ (opb.extractLsb' 0 4).toNat) ↔
      decode (opb :: rest) = .request (.illegalOp opb) rest) ∧
    exec (.illegalOp opb) s = .next (s.answered 0x81#8 [])

/-- R160, R72: the payload dispatch reads each row of the payload command space from its payload, and
what it reads is the payload. -/
def Obligations.PayloadDispatchMatchesPayloadBytes : Prop :=
  (∀ i : Instr, i.wellFormed → i.isRequest = false → decodePayload (encode i) = some i) ∧
  (∀ payload i, decodePayload payload = some i → i.isRequest = false ∧ encode i = payload)

/-- R175 with R160: `PL.DECODE` on a payload does what the payload's row of the payload command space
says (log entry 8). -/
def Obligations.PlDecodeRunsThePayloadRow : Prop :=
  ∀ payload i s, decodePayload payload = some i → exec (.plDecode payload) s = exec i s

/-- R64, R108 to R178: a few request words written out from the spec's encodings. -/
def Obligations.SampleRequestWordsDecode : Prop :=
  decode [0x00#8] = .request .ckInit [] ∧
  decode [0x01#8, 0x7E#8] = .request (.ckStep 0x7E#8) [] ∧
  decode [0x02#8] = .request .ckRead [] ∧
  decode [0x03#8, 0x00#8, 0x01#8, 0x7E#8] = .request (.ckCompute [0x7E#8]) [] ∧
  decode [0x04#8, 0x0A#8, 0x00#8, 0x01#8, 0x05#8] = .request (.frBuild 0x0A#8 [0x05#8]) [] ∧
  decode [0x09#8, 0x00#8, 0x02#8, 0x00#8, 0x01#8, 0x00#8, 0x00#8, 0x01#8, 0x09#8] =
    .request (.zbPack 2 [0x109#32]) [] ∧
  decode [0x10#8] = .request (.illegalOp 0x10#8) []

/-- R64: the request length of each operation; that of `ZB.PACK` does not depend on `NB`, against R236 (log
entry 12). -/
def Obligations.RequestLengthsOfTheOperandTable : Prop :=
  ∀ (b cmd opb : Byte) (seq : List Byte) (nb : Nat) (ps : List Word32),
    (encode .ckInit).length = 1 ∧ (encode (.ckStep b)).length = 2 ∧
    (encode .ckRead).length = 1 ∧ (encode (.ckCompute seq)).length = 3 + seq.length ∧
    (encode (.frBuild cmd seq)).length = 4 + seq.length ∧
    (encode (.frParse seq)).length = 3 + seq.length ∧
    (encode (.frExtract cmd seq)).length = 4 + seq.length ∧
    (encode (.plDecode seq)).length = 3 + seq.length ∧
    (encode (.zbUnpack seq)).length = 3 + seq.length ∧
    (encode (.zbPack nb ps)).length = 5 + 4 * ps.length ∧
    (encode (.illegalOp opb)).length = 1

/-- R43, R42, R11: 16-bit and 32-bit fields are big-endian, most significant byte first, and reading
inverts writing. -/
def Obligations.MultiByteFieldsAreBigEndian : Prop :=
  (∀ h l : Byte, (rd16 h l).toNat = h.toNat * 256 + l.toNat) ∧
  (∀ a b c d : Byte, (rd32 a b c d).toNat =
    a.toNat * 2 ^ 24 + b.toNat * 2 ^ 16 + c.toNat * 2 ^ 8 + d.toNat) ∧
  (∀ (w : Word16) (h l : Byte), be16 w = [h, l] ↔ rd16 h l = w) ∧
  (∀ (v : Word32) (a b c d : Byte), be32 v = [a, b, c, d] ↔ rd32 a b c d = v)

/-! ### Steps, ports and reset -/

/-- R22, R24, R47: with `RSQ` empty and no reset next, a step executes the complete request in `RQB`,
whole, and leaves none of it there. Bytes behind it belong to the later requests, which stay (R239; the
two parts of `RQB` are log entry 4). -/
def Obligations.StepExecutesTheCompleteRequest : Prop :=
  ∀ (s : State) (i : Instr) (rest : List Byte), s.noReset → s.rsq = [] →
    decode s.rqb = .request i rest →
    (rest = [] → step s = exec i s) ∧
    step s = exec i { s with rqbLater := rest ++ s.rqbLater } ∧
    ∃ t, step s = .next t ∧ t.rqb = [] ∧ t.rqbLater = rest ++ s.rqbLater

/-- R60: until its request is complete the block executes nothing: no step but a reset changes `ACC` or
adds to `RSQ`. With no later bytes in `RQB` and no host act left, nothing happens at all (that the step
then answers the same state is log entry 6; the two parts of `RQB` are log entry 4). -/
def Obligations.IncompleteRequestExecutesNothing : Prop :=
  ∀ (s : State) (why : Missing), s.noReset → decode s.rqb = .incomplete why →
    (∃ t, step s = .next t ∧ t.acc = s.acc ∧ (t.rsq = s.rsq ∨ ∃ b, s.rsq = b :: t.rsq)) ∧
    (s.rqbLater = [] → s.script = [] → step s = .next s)

/-- R22, R239: every byte the host writes is appended to `RQB`. While no complete request is in it the
byte belongs to the request being received; while unread response bytes hold a complete request, it waits
behind that request with the later requests, and these come up byte by byte, in order, once the request
has executed. That later requests wait in a part of `RQB` of their own, apart from the one request R22
speaks of, is the model's reading of R22 against R239 (log entry 4). -/
def Obligations.HostWriteReachesTheRequestBuffer : Prop :=
  (∀ (s t : State) (b : Byte) (q : List HostAct), s.script = .write b :: q → step s = .next t →
    t.script = q → t.wholeRqb = s.wholeRqb ++ [b]) ∧
  (∀ (s : State) (why : Missing) (b : Byte) (q : List HostAct),
    decode s.rqb = .incomplete why → s.rqbLater = [] → s.script = .write b :: q →
    step s = .next { s with rqb := s.rqb ++ [b], script := q }) ∧
  (∀ (s : State) (i : Instr) (rest : List Byte) (b : Byte) (q : List HostAct),
    decode s.rqb = .request i rest → s.rsq ≠ [] → s.script = .write b :: q →
    step s = .next { s with rqbLater := s.rqbLater ++ [b], script := q }) ∧
  (∀ (s : State) (why : Missing) (b : Byte) (later : List Byte), s.noReset →
    decode s.rqb = .incomplete why → s.rqbLater = b :: later →
    step s = .next { s with rqb := s.rqb ++ [b], rqbLater := later })

/-- R23: a host read returns `RSQ[0]` and removes it; a read of an empty `RSQ` waits, with no value and
no fault (that the step then answers the same state is log entry 6). Only where later bytes of `RQB` are
still coming up to an incomplete request does that come first, and the read stays next (log entry 4). -/
def Obligations.HostReadReturnsTheOldestByte : Prop :=
  (∀ (s : State) (b : Byte) (bs : List Byte) (q : List HostAct),
    s.script = .read :: q → s.rsq = b :: bs →
    s.rqbLater = [] ∨ (∃ i rest, decode s.rqb = .request i rest) →
    step s = .next { s with rsq := bs, received := s.received ++ [b], script := q }) ∧
  (∀ (s : State) (why : Missing) (c : Byte) (later : List Byte) (q : List HostAct),
    s.script = .read :: q → decode s.rqb = .incomplete why → s.rqbLater = c :: later →
    step s = .next { s with rqb := s.rqb ++ [c], rqbLater := later }) ∧
  (∀ (s : State) (why : Missing) (q : List HostAct),
    s.script = .read :: q → s.rsq = [] → decode s.rqb = .incomplete why → s.rqbLater = [] →
    step s = .next s)

/-- R22, R24, R239: while response bytes are unread, a complete request stays in `RQB` and the block
executes nothing; `RQB` changes only by a host write, whose byte waits behind that request. The host read
that empties `RSQ` lifts the hold; the request executes in the next step and leaves `RQB`, while the later
requests wait on there. Nothing comes to wait behind a request in any other way. The two parts of `RQB`
are log entry 4. -/
def Obligations.UnreadResponseHoldsTheNextRequest : Prop :=
  (∀ (s : State) (i : Instr) (rest : List Byte), s.noReset →
    decode s.rqb = .request i rest → s.rsq ≠ [] →
    ∃ t more, step s = .next t ∧ t.acc = s.acc ∧ t.rqb = s.rqb ∧ t.rqbLater = s.rqbLater ++ more ∧
      (more = [] ∨ ∃ b q, more = [b] ∧ s.script = .write b :: q) ∧
      (t.rsq = s.rsq ∨ ∃ b, s.rsq = b :: t.rsq)) ∧
  (∀ (s : State) (i : Instr) (rest : List Byte) (b : Byte) (q : List HostAct),
    decode s.rqb = .request i rest → s.rsq = [b] → s.script = .read :: q →
    (∀ q', q ≠ .rst :: q') →
    ∃ t u, step s = .next t ∧ t.rsq = [] ∧ t.rqb = s.rqb ∧ t.rqbLater = s.rqbLater ∧
      step t = exec i { t with rqbLater := rest ++ t.rqbLater } ∧
      step t = .next u ∧ u.rqb = [] ∧ u.rqbLater = rest ++ s.rqbLater) ∧
  (∀ s t : State, s.oneRequest → s.rqbLater = [] → step s = .next t → t.rqbLater ≠ [] →
    s.rsq ≠ [] ∧ (∃ i, decode s.rqb = .request i []) ∧ ∃ b q, s.script = .write b :: q)

/-- R32, R231: the state after reset (`RQB` in its two parts, log entry 4). -/
def Obligations.ResetValues : Prop :=
  State.reset.acc = 0x147A#16 ∧ State.reset.rqb = [] ∧ State.reset.rqbLater = [] ∧
    State.reset.rsq = []

/-- R231, R230: `rst` is one step, from any state: it sets `ACC` to `0x147A` and empties `RQB` and
`RSQ`, and no response is produced; the next byte written is taken as an `OPB`; `CK.READ` straight
after answers `14 7A`. All of `RQB` is emptied, the later requests too (log entry 4). -/
def Obligations.ResetDiscardsEverythingInFlight : Prop :=
  (∀ (s : State) (q : List HostAct), s.script = .rst :: q →
    step s = .next
      { s with acc := 0x147A#16, rqb := [], rqbLater := [], rsq := [], script := q }) ∧
  (∀ (s : State) (b : Byte) (q : List HostAct), s.script = .rst :: .write b :: q →
    ∃ t, step s = .next t ∧ step t = .next { t with rqb := [b], script := q }) ∧
  (∀ (s : State) (q : List HostAct), s.script = .rst :: q →
    ∃ t, step s = .next t ∧ exec .ckRead t = .next (t.answered 0x00#8 [0x14#8, 0x7A#8]))

/-- Every step has a next state: the block never stops (60_exceptions.md R204; that a wait is a step
answering the same state is log entry 6). -/
def Obligations.StepAlwaysAnswers : Prop := ∀ s : State, ∃ t, step s = .next t

/-- R22, R24: every step keeps that `RQB` holds at most one complete request, apart from the later requests
of R239 (log entry 4), and, on its own, that `RSQ` holds the end of at most one response; so it keeps the
invariant of both. -/
def Obligations.StepKeepsOneRequestAndOneResponse : Prop :=
  ∀ s t : State, step s = .next t →
    (s.Inv → t.Inv) ∧ (s.oneRequest → t.oneRequest) ∧ (s.oneResponse → t.oneResponse)

/-- R22, each bullet of all of `RQB`: as long as the host does not write while an unread response holds a
complete request, `RQB` is one sequence that holds no more than one complete request, an execution leaves
it `[]`, and every host write appends its byte to it. Where the host does write then, R239 says otherwise
(log entry 4). -/
def Obligations.RqbHoldsOneRequestWithoutHeldWrites : Prop :=
  ∀ s t : State, s.oneRequest → s.rqbLater = [] → step s = .next t →
    s.rsq = [] ∨ (∃ why, decode s.rqb = .incomplete why) ∨ (∀ b q, s.script ≠ .write b :: q) →
    (t.oneRequest ∧ t.rqbLater = [] ∧ t.wholeRqb = t.rqb) ∧
    (∀ i, s.noReset → s.rsq = [] → decode s.rqb = .request i [] → t.wholeRqb = []) ∧
    (∀ b q, s.script = .write b :: q → t.script = q → t.wholeRqb = s.wholeRqb ++ [b])

/-- The invariant holds after reset (R32), and the block is at rest then (R242). -/
def Obligations.ResetHasTheInvariant : Prop := State.reset.Inv ∧ State.reset.atRest

/-- R4, R20, R22, R23, R47: from rest, a host that writes the bytes of a well-formed request and reads as
many bytes as the response has makes the block execute exactly that request and receives exactly its
response. -/
def Obligations.HostTransactionRunsTheRequest : Prop :=
  ∀ (s t : State) (i : Instr) (q : List HostAct), i.wellFormed → i.isRequest →
    s.rqb = [] → s.rqbLater = [] → s.rsq = [] → exec i s = .next t →
    runFor ((encode i).length + 1 + t.rsq.length)
      { s with script := (encode i).map .write ++ (List.replicate t.rsq.length .read ++ q) } =
    .next { t with rsq := [], received := s.received ++ t.rsq, script := q }

/-- R49, R24, R47, R239: a host that writes the bytes of several well-formed requests at once, and then reads,
receives the responses of exactly these requests executed one after another, in request order, because
of the hold of R24, under which the later requests wait in `RQB` (log entry 4). -/
def Obligations.BatchedRequestsAnswerInOrder : Prop :=
  ∀ (is : List Instr) (s t : State) (q : List HostAct),
    (∀ i ∈ is, i.wellFormed ∧ i.isRequest) →
    s.rqb = [] → s.rqbLater = [] → s.rsq = [] → execAll is s = .next t →
    ∃ n, runFor n { s with
        script := (is.flatMap encode).map .write ++ (List.replicate t.rsq.length .read ++ q) } =
      .next { t with rsq := [], received := s.received ++ t.rsq, script := q }

/-! ### Responses, errors and who touches `ACC` -/

/-- R61, R47, R12: every request leaves `RQB`, appends exactly one response, opened by a status byte, to
the tail of `RSQ`, and touches nothing else but `ACC`. -/
def Obligations.EveryRequestAnswersOneResponse : Prop :=
  ∀ (i : Instr) (s : State), ∃ (v : Word16) (st : Byte) (r : List Byte),
    exec i s = .next { s with acc := v, rqb := [], rsq := s.rsq ++ st :: r }

/-- R67, R68, R200: each operation answers only its own statuses; no other `ST` value is ever
produced. -/
def Obligations.StatusesOfEachOperation : Prop :=
  ∀ (i : Instr) (s t : State), exec i s = .next t →
    ∃ st r, t.rsq = s.rsq ++ st :: r ∧ st ∈ allowedStatus i

/-- R203, R201: an error changes no state but emptying `RQB` and queuing the response; a decode error
(`0x11`, `0x12`) carries the whole offending payload with its length (R71), every other error nothing
beyond `ST`. -/
def Obligations.ErrorsChangeNothingElse : Prop :=
  ∀ (i : Instr) (s t : State) (st : Byte) (r : List Byte), exec i s = .next t →
    t.rsq = s.rsq ++ st :: r → st ≠ 0x00#8 →
    t = s.answered st r ∧
    (st ≠ 0x11#8 → st ≠ 0x12#8 → r = []) ∧
    (st = 0x11#8 ∨ st = 0x12#8 → ∃ payload, i.asRequest = .plDecode payload ∧
      r = be16n payload.length ++ payload)

/-- R21: only `CK.INIT` and `CK.STEP` write `ACC`. -/
def Obligations.OnlyInitAndStepWriteAcc : Prop :=
  ∀ (i : Instr) (s t : State), exec i s = .next t → t.acc ≠ s.acc →
    i = .ckInit ∨ ∃ b, i = .ckStep b

/-- R21, R107: an operation other than `CK.INIT`, `CK.STEP` and `CK.READ` neither reads nor writes `ACC`:
with any other accumulator it answers the same and leaves that accumulator. -/
def Obligations.OtherOperationsIgnoreAcc : Prop :=
  ∀ (i : Instr) (s t : State) (a : Word16), writesAcc i = false → i ≠ .ckRead →
    exec i s = .next t → exec i { s with acc := a } = .next { t with acc := a }

/-- R48: every operation but `CK.INIT` and `CK.STEP`, executed twice with the same operands, leaves `ACC`
and gives the same response twice; `CK.INIT` twice leaves `ACC` as once; `CK.STEP` twice advances `ACC`
twice. -/
def Obligations.RepeatedOperationAnswersTheSame : Prop :=
  (∀ (i : Instr) (s t : State), writesAcc i = false → exec i s = .next t →
    ∃ resp, t = { s with rqb := [], rsq := s.rsq ++ resp } ∧
      exec i t = .next { t with rsq := t.rsq ++ resp }) ∧
  (∀ s t u : State, exec .ckInit s = .next t → exec .ckInit t = .next u → u.acc = t.acc) ∧
  (∀ (b : Byte) (s t u : State), exec (.ckStep b) s = .next t → exec (.ckStep b) t = .next u →
    u.acc = ckStep (ckStep s.acc b) b)

/-- R65, R202: an operation whose operand or result would be longer than `MAX_LEN` answers the single
byte `0x82`, before its own checks, and changes nothing else; `0x82` is answered for no other reason;
`CK.INIT`, `CK.STEP` and `CK.READ` have no length and never answer it. -/
def Obligations.OverlengthExactlyAboveMaxLen : Prop :=
  (∀ (i : Instr) (s : State) (n : Nat), limitedLength i = some n → Config.maxLen < n →
    exec i s = .next (s.answered 0x82#8 [])) ∧
  (∀ (i : Instr) (s t : State) (r : List Byte), exec i s = .next t →
    t.rsq = s.rsq ++ 0x82#8 :: r → ∃ n, limitedLength i = some n ∧ Config.maxLen < n)

/-- R7: `14 <= MAX_LEN <= 65535`, and `RENDER_DIGIT` is total, to ASCII strings of 1 to 3 characters. -/
def Obligations.ParametersStayInTheirBounds : Prop :=
  (14 ≤ Config.maxLen ∧ Config.maxLen ≤ 65535) ∧
  (∀ v : Byte, 1 ≤ (Config.renderDigit v).length ∧ (Config.renderDigit v).length ≤ 3 ∧
    ∀ c ∈ Config.renderDigit v, c.toNat < 128)

/-! ### CKE, the checksum engine -/

/-- R100 to R103: rotation, inversion, addition and one step, in unbounded arithmetic, with the rules'
own examples. -/
def Obligations.ChecksumStepArithmetic : Prop :=
  (∀ c : Word16, (rotl16 c).toNat = (2 * c.toNat) % 65536 + c.toNat / 32768) ∧
  (∀ c : Word16, (inv16 c).toNat = 65535 - c.toNat) ∧
  (∀ (c : Word16) (b : Byte),
    (addh c b).toNat = (c.toNat + c.toNat / 256 + b.toNat) % 65536 ∧
    c.toNat + c.toNat / 256 + b.toNat ≤ 0x101FD) ∧
  (∀ (c : Word16) (b : Byte), ckStep c b = addh (inv16 (rotl16 c)) b) ∧
  (rotl16 0x8000#16 = 0x0001#16 ∧ rotl16 0xFFFF#16 = 0xFFFF#16 ∧ rotl16 0x0000#16 = 0x0000#16 ∧
    rotl16 0x147A#16 = 0x28F4#16 ∧ rotl16 0x00FF#16 = 0x01FE#16) ∧
  (inv16 0x28F4#16 = 0xD70B#16 ∧ inv16 0x0000#16 = 0xFFFF#16 ∧ inv16 0xFFFF#16 = 0x0000#16 ∧
    inv16 0x0001#16 = 0xFFFE#16 ∧ inv16 0x01FE#16 = 0xFE01#16) ∧
  (addh 0xD70B#16 0x7E#8 = 0xD860#16 ∧ addh 0xFFFF#16 0x00#8 = 0x00FE#16 ∧
    addh 0xFE01#16 0xFF#8 = 0xFFFE#16) ∧
  (ckStep 0x147A#16 0x7E#8 = 0xD860#16 ∧ ckStep 0x0000#16 0x00#8 = 0x00FE#16 ∧
    ckStep 0xFFFF#16 0x00#8 = 0x0000#16 ∧ ckStep 0x8000#16 0x00#8 = 0x00FD#16 ∧
    ckStep 0x00FF#16 0xFF#8 = 0xFFFE#16)

/-- R108: `CK.INIT`, the one byte `00`, sets `ACC` to `0x147A` and answers `OK` alone, always; it is
idempotent, and straight after reset it leaves `ACC` as it is. -/
def Obligations.CkInitStartsAnAccumulation : Prop :=
  encode .ckInit = [0x00#8] ∧
  (∀ s : State, exec .ckInit s =
    .next { s with acc := 0x147A#16, rqb := [], rsq := s.rsq ++ [0x00#8] }) ∧
  (∀ t : State, exec .ckInit State.reset = .next t → t.acc = State.reset.acc)

/-- R109, with R100 to R103 in unbounded arithmetic: `CK.STEP b`, the bytes `01 b`, rotates `ACC` left by
one, inverts it, adds its high byte and `b`, cut to 16 bits, and answers `OK` alone, always. -/
def Obligations.CkStepAccumulatesOneByte : Prop :=
  (∀ b : Byte, encode (.ckStep b) = [0x01#8, b]) ∧
  (∀ (b : Byte) (s : State), ∃ v : Word16,
    exec (.ckStep b) s = .next { s with acc := v, rqb := [], rsq := s.rsq ++ [0x00#8] } ∧
    ∀ x, x = 65535 - ((2 * s.acc.toNat) % 65536 + s.acc.toNat / 32768) →
      v.toNat = (x + x / 256 + b.toNat) % 65536)

/-- R110: `CK.READ`, the one byte `02`, answers `OK` and `ACC`, high byte first, and changes nothing;
straight after reset or `CK.INIT` it answers `14 7A`, which is `compute([])`. -/
def Obligations.CkReadReturnsAcc : Prop :=
  encode .ckRead = [0x02#8] ∧
  (∀ (s : State) (h l : Byte), s.acc.toNat = h.toNat * 256 + l.toNat →
    exec .ckRead s = .next (s.answered 0x00#8 [h, l])) ∧
  exec .ckRead State.reset = .next (State.reset.answered 0x00#8 [0x14#8, 0x7A#8]) ∧
  (∀ s t : State, exec .ckInit s = .next t →
    exec .ckRead t = .next (t.answered 0x00#8 [0x14#8, 0x7A#8])) ∧
  be16 (compute []) = [0x14#8, 0x7A#8]

/-- R111: `CK.COMPUTE [seq]`, the bytes `03 LEN seq`, answers `OK` and `be16(compute(seq))`, or
`Overlength`, and neither reads nor writes `ACC`; with the rule's own checksums. -/
def Obligations.CkComputeReturnsTheChecksum : Prop :=
  (∀ seq : List Byte, encode (.ckCompute seq) = 0x03#8 :: (be16n seq.length ++ seq)) ∧
  (∀ (seq : List Byte) (s : State), seq.length ≤ Config.maxLen →
    exec (.ckCompute seq) s = .next (s.answered 0x00#8 (be16 (compute seq)))) ∧
  (∀ (seq : List Byte) (s : State), Config.maxLen < seq.length →
    exec (.ckCompute seq) s = .next (s.answered 0x82#8 [])) ∧
  (compute [] = 0x147A#16 ∧ compute [0x7E#8] = 0xD860#16 ∧ compute [0xFE#8] = 0xD8E0#16)

/-- R112: after `CK.INIT` and any requests whose only writers of `ACC` are `CK.STEP b1` .. `CK.STEP bn` in
this order, `ACC = compute([b1 .. bn])`; a following `CK.READ` answers what `CK.COMPUTE [b1 .. bn]`
answers; and `compute(s ++ [b]) = ck_step(compute(s), b)`. -/
def Obligations.AccumulationEqualsCompute : Prop :=
  (∀ (bs : List Byte) (is : List Instr) (s : State),
    is.filter writesAcc = bs.map .ckStep →
    ∃ t, execAll (.ckInit :: is) s = .next t ∧ t.acc = compute bs ∧
      exec .ckRead t = .next (t.answered 0x00#8 (be16 (compute bs))) ∧
      (bs.length ≤ Config.maxLen → exec (.ckCompute bs) t = exec .ckRead t)) ∧
  (∀ (bs : List Byte) (b : Byte), compute (bs ++ [b]) = ckStep (compute bs) b)

/-- R76: `CK.SEQ [b1 ... bn]` expands to `CK.INIT` and the `CK.STEP`s and leaves `ACC` at the checksum of
the sequence; `FR.REQ cmd` expands to `FR.BUILD cmd, []`, the bytes `04 CMD 00 00`, and answers the
frame of a request with no data. -/
def Obligations.PseudoOperationsExpand : Prop :=
  (∀ bs : List Byte, ckSeq bs = .ckInit :: bs.map .ckStep) ∧
  (∀ (bs : List Byte) (s : State), ∃ t, execAll (ckSeq bs) s = .next t ∧ t.acc = compute bs) ∧
  (∀ cmd : Byte, frReq cmd = .frBuild cmd [] ∧
    encode (frReq cmd) = [0x04#8, cmd, 0x00#8, 0x00#8]) ∧
  (∀ (cmd : Byte) (s : State), exec (frReq cmd) s = .next (s.answered 0x00#8
    ([0x00#8, 0x07#8, 0xFE#8, 0xFE#8, cmd] ++ be16 (compute [cmd]) ++ [0xFE#8, 0x0D#8])))

/-- R113 (b) to (e): the empty checksum, single bytes without a wrap, collisions, and injectivity in the
last byte. -/
def Obligations.ChecksumLaws : Prop :=
  compute [] = 0x147A#16 ∧
  (∀ b : Byte, (compute [b]).toNat = 0xD7E2 + b.toNat) ∧
  (ckStep 0x7F81#16 0x00#8 = 0x00FD#16 ∧ ckStep 0x8000#16 0x00#8 = 0x00FD#16 ∧
    compute [0x00#8, 0x00#8] = 0x508A#16 ∧ compute [0x01#8, 0x02#8] = 0x508A#16) ∧
  (∀ (c : Word16) (a b : Byte), ckStep c a = ckStep c b → a = b) ∧
  (∀ (bs : List Byte) (a b : Byte), a ≠ b → compute (bs ++ [a]) ≠ compute (bs ++ [b]))

/-! ### FRC, the frame codec -/

/-- R130, R133: the fields of a frame and its length. -/
def Obligations.BuiltFrameLayout : Prop :=
  ∀ (c : Byte) (d : List Byte),
    (buildFrame c d).length = d.length + 7 ∧
    slice (buildFrame c d) 0 2 = [0xFE#8, 0xFE#8] ∧
    slice (buildFrame c d) 2 3 = [c] ∧
    slice (buildFrame c d) 3 (3 + d.length) = d ∧
    slice (buildFrame c d) (3 + d.length) (5 + d.length) = be16 (compute ([c] ++ d)) ∧
    slice (buildFrame c d) (5 + d.length) (7 + d.length) = [0xFE#8, 0x0D#8]

/-- R134 to R139, on every byte sequence: fewer than 6 bytes give `TooShort`; a longer one is two header
bytes, an interior, two checksum bytes and two footer bytes, checked in the order header, footer,
checksum, empty interior, the first failure deciding. -/
def Obligations.ParseFrameChecksInOrder : Prop :=
  (∀ bytes : List Byte, bytes.length < 6 → parseFrame bytes = .error .tooShort) ∧
  (∀ (h1 h2 k1 k2 f1 f2 : Byte) (interior bytes : List Byte),
    bytes = [h1, h2] ++ interior ++ [k1, k2] ++ [f1, f2] →
    ([h1, h2] ≠ [0xFE#8, 0xFE#8] → parseFrame bytes = .error .badHeader) ∧
    ([h1, h2] = [0xFE#8, 0xFE#8] → [f1, f2] ≠ [0xFE#8, 0x0D#8] →
      parseFrame bytes = .error .badFooter) ∧
    ([h1, h2] = [0xFE#8, 0xFE#8] → [f1, f2] = [0xFE#8, 0x0D#8] → rd16 k1 k2 ≠ compute interior →
      parseFrame bytes = .error .checksumMismatch) ∧
    ([h1, h2] = [0xFE#8, 0xFE#8] → [f1, f2] = [0xFE#8, 0x0D#8] → rd16 k1 k2 = compute interior →
      interior = [] → parseFrame bytes = .error .tooShort) ∧
    (∀ c d, [h1, h2] = [0xFE#8, 0xFE#8] → [f1, f2] = [0xFE#8, 0x0D#8] →
      rd16 k1 k2 = compute interior → interior = c :: d →
      parseFrame bytes = .ok { command := c, data := d }))

/-- R144: `buildFrame` and `parseFrame` are exact inverses, and at the block `FR.PARSE` of a built frame
that fits answers its command and data. -/
def Obligations.BuildAndParseAreInverses : Prop :=
  (∀ (c : Byte) (d : List Byte),
    parseFrame (buildFrame c d) = .ok { command := c, data := d }) ∧
  (∀ (bytes : List Byte) (f : Frame), parseFrame bytes = .ok f →
    buildFrame f.command f.data = bytes) ∧
  (∀ (c : Byte) (d : List Byte) (s : State), d.length + 7 ≤ Config.maxLen →
    exec (.frParse (buildFrame c d)) s =
      .next (s.answered 0x00#8 (c :: (be16n d.length ++ d))))

/-- R140: the payload of a parsed frame is the interior of its bytes. -/
def Obligations.ExtractedPayloadIsTheInterior : Prop :=
  (∀ (c : Byte) (d : List Byte), extractPayload { command := c, data := d } = [c] ++ d) ∧
  (∀ (bytes : List Byte) (f : Frame), parseFrame bytes = .ok f →
    extractPayload f = slice bytes 2 (bytes.length - 4))

/-- R145 (a), (b), (d) and the example of (c): what a change to a built frame does. -/
def Obligations.TamperedFrames : Prop :=
  (∀ (c k1 k2 : Byte) (d : List Byte), [k1, k2] ≠ be16 (compute (c :: d)) →
    parseFrame ([0xFE#8, 0xFE#8] ++ c :: d ++ [k1, k2] ++ [0xFE#8, 0x0D#8]) =
      .error .checksumMismatch) ∧
  (∀ (init : List Byte) (x y : Byte), x ≠ y →
    parseFrame ([0xFE#8, 0xFE#8] ++ (init ++ [y]) ++ be16 (compute (init ++ [x])) ++
      [0xFE#8, 0x0D#8]) = .error .checksumMismatch) ∧
  (∀ (c h1 h2 : Byte) (d : List Byte), [h1, h2] ≠ [0xFE#8, 0xFE#8] →
    parseFrame ([h1, h2] ++ (buildFrame c d).drop 2) = .error .badHeader) ∧
  (∀ (c f1 f2 : Byte) (d : List Byte), [f1, f2] ≠ [0xFE#8, 0x0D#8] →
    parseFrame ((buildFrame c d).take (d.length + 5) ++ [f1, f2]) = .error .badFooter) ∧
  (compute [0x7B#8, 0xC0#8, 0xB1#8, 0x83#8, 0x00#8, 0xFB#8, 0x47#8, 0xDA#8] = 0x0124#16 ∧
    compute [0x7B#8, 0xC0#8, 0xB1#8, 0x83#8, 0x00#8, 0xFB#8, 0xC7#8, 0xDA#8] = 0x0124#16)

/-- R238: two built frames joined into one operand pass the header and footer checks; the result is
`ChecksumMismatch` where the second frame's checksum differs from the checksum of everything between
the first header and it, and else a frame that neither was. -/
def Obligations.JoinedFramesPassOnlyOnEqualChecksums : Prop :=
  ∀ (c1 c2 : Byte) (d1 d2 mid : List Byte),
    mid = d1 ++ be16 (compute (c1 :: d1)) ++ [0xFE#8, 0x0D#8, 0xFE#8, 0xFE#8] ++ c2 :: d2 →
    (compute (c2 :: d2) ≠ compute (c1 :: mid) →
      parseFrame (buildFrame c1 d1 ++ buildFrame c2 d2) = .error .checksumMismatch) ∧
    (compute (c2 :: d2) = compute (c1 :: mid) →
      parseFrame (buildFrame c1 d1 ++ buildFrame c2 d2) = .ok { command := c1, data := mid })

/-- R141, with R132: `FR.BUILD cmd, [data]`, the bytes `04 CMD LEN data`, answers `OK`, the frame's
length and the frame, or `Overlength` where the frame is longer than `MAX_LEN`; no state is written;
with the rules' own frames. -/
def Obligations.FrBuildAnswersTheFrame : Prop :=
  (∀ (cmd : Byte) (data : List Byte),
    encode (.frBuild cmd data) = 0x04#8 :: cmd :: (be16n data.length ++ data)) ∧
  (∀ (cmd : Byte) (data : List Byte) (s : State), data.length + 7 ≤ Config.maxLen →
    exec (.frBuild cmd data) s = .next (s.answered 0x00#8 (be16n (data.length + 7) ++
      ([0xFE#8, 0xFE#8] ++ [cmd] ++ data ++ be16 (compute ([cmd] ++ data)) ++
        [0xFE#8, 0x0D#8])))) ∧
  (∀ (cmd : Byte) (data : List Byte) (s : State), Config.maxLen < data.length + 7 →
    exec (.frBuild cmd data) s = .next (s.answered 0x82#8 [])) ∧
  (buildFrame 0x7E#8 [] = [0xFE#8, 0xFE#8, 0x7E#8, 0xD8#8, 0x60#8, 0xFE#8, 0x0D#8] ∧
    buildFrame 0x1C#8 [] = [0xFE#8, 0xFE#8, 0x1C#8, 0xD7#8, 0xFE#8, 0xFE#8, 0x0D#8] ∧
    ∀ (cmd : Byte) (data : List Byte), buildFrame cmd data =
      [0xFE#8, 0xFE#8] ++ [cmd] ++ data ++ be16 (compute ([cmd] ++ data)) ++ [0xFE#8, 0x0D#8])

/-- R142: `FR.PARSE [bytes]`, the bytes `05 LEN bytes`, answers the command, the data length and the data
of a frame; a failure answers its status alone; `Overlength` is checked first; no state is written;
with the rule's own operands. -/
def Obligations.FrParseAnswersTheFrameOrItsError : Prop :=
  (∀ bytes : List Byte, encode (.frParse bytes) = 0x05#8 :: (be16n bytes.length ++ bytes)) ∧
  (∀ (bytes : List Byte) (s : State), Config.maxLen < bytes.length →
    exec (.frParse bytes) s = .next (s.answered 0x82#8 [])) ∧
  (∀ (bytes : List Byte) (s : State), bytes.length ≤ Config.maxLen →
    (∀ c d, parseFrame bytes = .ok { command := c, data := d } →
      exec (.frParse bytes) s = .next (s.answered 0x00#8 (c :: (be16n d.length ++ d)))) ∧
    (parseFrame bytes = .error .tooShort →
      exec (.frParse bytes) s = .next (s.answered 0x01#8 [])) ∧
    (parseFrame bytes = .error .badHeader →
      exec (.frParse bytes) s = .next (s.answered 0x02#8 [])) ∧
    (parseFrame bytes = .error .badFooter →
      exec (.frParse bytes) s = .next (s.answered 0x03#8 [])) ∧
    (parseFrame bytes = .error .checksumMismatch →
      exec (.frParse bytes) s = .next (s.answered 0x04#8 []))) ∧
  (parseFrame [] = .error .tooShort ∧
    parseFrame [0xFE#8, 0xFE#8, 0x14#8, 0x7A#8, 0xFE#8, 0x0D#8] = .error .tooShort ∧
    parseFrame [0xFE#8, 0xFE#8, 0x7E#8, 0xD8#8, 0x60#8, 0xFE#8, 0x0D#8] =
      .ok { command := 0x7E#8, data := [] })

/-- R143: `FR.EXTRACT cmd, [data]`, the bytes `06 CMD LEN data`, answers `OK`, the payload's length and
the payload, or `Overlength`; no state is written. -/
def Obligations.FrExtractAnswersThePayload : Prop :=
  (∀ (cmd : Byte) (data : List Byte),
    encode (.frExtract cmd data) = 0x06#8 :: cmd :: (be16n data.length ++ data)) ∧
  (∀ (cmd : Byte) (data : List Byte) (s : State), data.length + 1 ≤ Config.maxLen →
    exec (.frExtract cmd data) s =
      .next (s.answered 0x00#8 (be16n (data.length + 1) ++ ([cmd] ++ data)))) ∧
  (∀ (cmd : Byte) (data : List Byte) (s : State), Config.maxLen < data.length + 1 →
    exec (.frExtract cmd data) s = .next (s.answered 0x82#8 []))

/-! ### PLD, the payload decoder -/

/-- R171, R165 to R170, with the layout of R69: a `7E` payload of 14 bytes or more that fits answers its
type and language codes with their known flags and the version string; bytes after index 13 do not
matter. The payload row answers the same. -/
def Obligations.DeviceInfoAnswer : Prop :=
  ∀ (t l d0 d1 d2 d3 d4 d5 d6 d7 d8 d9 d10 : Byte) (extra : List Byte) (s : State),
    14 + extra.length ≤ Config.maxLen →
    ∀ v : List Byte, v = render d0 ++ [0x2E#8] ++ render d1 ++ render d2 ++ [0x20#8] ++ render d3 ++
      render d4 ++ render d5 ++ render d6 ++ [0x2D#8] ++ render d7 ++ render d8 ++ [0x2D#8] ++
      render d9 ++ render d10 →
    ∀ u : State, u = s.answered 0x00#8 ([0x7E#8, t,
        if t ∈ [0#8, 1#8, 2#8, 3#8, 4#8, 66#8, 67#8, 72#8, 132#8] then 0x01#8 else 0x00#8, l,
        if l ∈ [1#8, 6#8, 9#8] then 0x01#8 else 0x00#8, BitVec.ofNat 8 v.length] ++ v) →
    exec (.plDecode ([0x7E#8, t, d0, d1, d2, d3, d4, d5, d6, d7, d8, d9, d10, l] ++ extra)) s =
      .next u ∧
    exec (.payload7E ([t, d0, d1, d2, d3, d4, d5, d6, d7, d8, d9, d10, l] ++ extra)) s = .next u

/-- R168: a version byte up to 9 is its ASCII digit, any other is `RENDER_DIGIT` of it; the version of 11
such digits has 15 characters; no version is longer than 37, so its length fits `VLEN`. -/
def Obligations.VersionStringLengths : Prop :=
  (∀ v : Byte, v.toNat ≤ 9 → render v = [BitVec.ofNat 8 (0x30 + v.toNat)]) ∧
  (∀ v : Byte, 10 ≤ v.toNat → render v = Config.renderDigit v) ∧
  (∀ ds : List Byte, ds.length = 11 → (∀ d ∈ ds, d.toNat ≤ 9) → (version ds).length = 15) ∧
  (∀ ds : List Byte, ds.length = 11 → (version ds).length ≤ 37)

/-- R164, R167, R162: the two lookup tables, letter for letter, every other code `Unknown`; that
a known code stands beside its name is log entry 9. -/
def Obligations.LookupTables : Prop :=
  (∀ v : Byte, lookupIn Config.alarmType v =
    if v.toNat = 0 then .named v "Integra 24" else if v.toNat = 1 then .named v "Integra 32"
    else if v.toNat = 2 then .named v "Integra 64" else if v.toNat = 3 then .named v "Integra 128"
    else if v.toNat = 4 then .named v "INTEGRA 128-WRL SIM300"
    else if v.toNat = 66 then .named v "INTEGRA 64 PLUS"
    else if v.toNat = 67 then .named v "INTEGRA 128 PLUS"
    else if v.toNat = 72 then .named v "INTEGRA 256 PLUS"
    else if v.toNat = 132 then .named v "INTEGRA 128-WRL LEON" else .unknown v) ∧
  (∀ v : Byte, lookupIn Config.language v =
    if v.toNat = 1 then .named v "English" else if v.toNat = 6 then .named v "Italian"
    else if v.toNat = 9 then .named v "Dutch" else .unknown v)

/-- R165, R160, R71: a `7E` payload shorter than 14 bytes, and an empty payload, answer
`MalformedPayload` with the whole payload. -/
def Obligations.ShortPayloadIsMalformed : Prop :=
  (∀ (rest : List Byte) (s : State), rest.length + 1 < 14 →
    exec (.plDecode (0x7E#8 :: rest)) s =
      .next (s.answered 0x12#8 (be16n (rest.length + 1) ++ 0x7E#8 :: rest)) ∧
    exec (.payload7E rest) s =
      .next (s.answered 0x12#8 (be16n (rest.length + 1) ++ 0x7E#8 :: rest))) ∧
  (∀ s : State, exec (.plDecode []) s = .next (s.answered 0x12#8 [0x00#8, 0x00#8]))

/-- R174, R175, R70: a `0A` payload that fits answers the count and the partition numbers of its bytes
from offset 1 on; it never fails. The payload row answers the same. -/
def Obligations.ZoneBitmapAnswer : Prop :=
  ∀ (data : List Byte) (s : State), data.length + 1 ≤ Config.maxLen →
    ∀ u : State, u = s.answered 0x00#8 ([0x0A#8] ++ be32n (zoneUnpack data).length ++
        (zoneUnpack data).flatMap be32n) →
    exec (.plDecode (0x0A#8 :: data)) s = .next u ∧ exec (.payload0A data) s = .next u

/-- R163, R71: a payload with any other command byte answers `UnsupportedCommand` with the whole payload.
The payload row answers the same. -/
def Obligations.OtherCommandIsUnsupported : Prop :=
  ∀ (cmd : Byte) (rest : List Byte) (s : State), cmd ≠ 0x7E#8 → cmd ≠ 0x0A#8 →
    rest.length + 1 ≤ Config.maxLen →
    ∀ u : State, u = s.answered 0x11#8 (be16n (rest.length + 1) ++ cmd :: rest) →
    exec (.plDecode (cmd :: rest)) s = .next u ∧ exec (.payloadOther cmd rest) s = .next u

/-- R172, R173, R44: the unpacked list is strictly increasing, holds exactly the numbers `8*j + k + 1` of
the bits `k` of bytes `j` that are 1, all from 1 to `8*len(data)`, and is as long as there are such
bits. -/
def Obligations.UnpackedZonesAreTheSetBits : Prop :=
  ∀ data : List Byte,
    (zoneUnpack data).Pairwise (· < ·) ∧
    (∀ p, p ∈ zoneUnpack data ↔
      ∃ j k, j < data.length ∧ k < 8 ∧ (data.getD j 0#8).getLsbD k = true ∧ p = 8 * j + k + 1) ∧
    (∀ p ∈ zoneUnpack data, 1 ≤ p ∧ p ≤ 8 * data.length) ∧
    (zoneUnpack data).length =
      (data.map (fun b => ((List.range 8).filter (fun k => b.getLsbD k)).length)).sum ∧
    zoneUnpack [] = []

/-- R177: on partition numbers from 1 to `8*NB`, the packed bitmap has `NB` bytes, and bit `k` of byte `j`
is 1 exactly when partition `8*j + k + 1` is listed, in whatever order and however often. -/
def Obligations.PackedBitmapHasTheListedBits : Prop :=
  ∀ (nb : Nat) (ps : List Word32), (∀ p ∈ ps, 1 ≤ p.toNat ∧ p.toNat ≤ 8 * nb) →
    (zonePack nb ps).length = nb ∧
    ∀ j k, j < nb → k < 8 →
      (((zonePack nb ps).getD j 0#8).getLsbD k = true ↔ ∃ p ∈ ps, p.toNat = 8 * j + k + 1)

/-- R179: unpacking a packed list gives it sorted without repeats; packing an unpacked bitmap gives the
bitmap (whose partition numbers fit 32 bits, as they do within `MAX_LEN`: R70). -/
def Obligations.PackAndUnpackAreInverses : Prop :=
  (∀ (nb : Nat) (ps : List Word32), (∀ p ∈ ps, 1 ≤ p.toNat ∧ p.toNat ≤ 8 * nb) →
    (zoneUnpack (zonePack nb ps)).Pairwise (· < ·) ∧
    ∀ n, n ∈ zoneUnpack (zonePack nb ps) ↔ n ∈ ps.map BitVec.toNat) ∧
  (∀ d : List Byte, 8 * d.length < 2 ^ 32 →
    zonePack d.length ((zoneUnpack d).map (BitVec.ofNat 32)) = d)

/-- R176: `ZB.UNPACK [data]`, the bytes `08 LEN data`, answers `OK`, the count and the partition numbers,
or `Overlength`; no state is written. -/
def Obligations.ZbUnpackAnswersTheZones : Prop :=
  (∀ data : List Byte, encode (.zbUnpack data) = 0x08#8 :: (be16n data.length ++ data)) ∧
  (∀ (data : List Byte) (s : State), data.length ≤ Config.maxLen →
    exec (.zbUnpack data) s = .next (s.answered 0x00#8
      (be32n (zoneUnpack data).length ++ (zoneUnpack data).flatMap be32n))) ∧
  (∀ (data : List Byte) (s : State), Config.maxLen < data.length →
    exec (.zbUnpack data) s = .next (s.answered 0x82#8 []))

/-- R178: `ZB.PACK nb, {p, ...}`, the bytes `09 NB CNT P..`, answers `Overlength` where `NB` is above
`MAX_LEN`, else `BadOperand` where some `P[i]` is 0 or above `8*NB`, else `OK`, `NB` and the packed
bitmap; no state is written. -/
def Obligations.ZbPackAnswersTheBitmap : Prop :=
  (∀ (nb : Nat) (ps : List Word32), encode (.zbPack nb ps) =
    0x09#8 :: (be16n nb ++ be16n ps.length ++ ps.flatMap be32)) ∧
  (∀ (nb : Nat) (ps : List Word32) (s : State), Config.maxLen < nb →
    exec (.zbPack nb ps) s = .next (s.answered 0x82#8 [])) ∧
  (∀ (nb : Nat) (ps : List Word32) (s : State), nb ≤ Config.maxLen →
    (∃ p ∈ ps, p.toNat = 0 ∨ 8 * nb < p.toNat) →
    exec (.zbPack nb ps) s = .next (s.answered 0x83#8 [])) ∧
  (∀ (nb : Nat) (ps : List Word32) (s : State), nb ≤ Config.maxLen →
    (∀ p ∈ ps, 1 ≤ p.toNat ∧ p.toNat ≤ 8 * nb) →
    exec (.zbPack nb ps) s = .next (s.answered 0x00#8 (be16n nb ++ zonePack nb ps)))
end

