-- ==== Sys2Proof/Laws/Bytes.lean ====
section
/-! SUPPORT. Big-endian fields: reading inverts writing, and the other way round. -/

namespace Sys2Proof

@[simp] theorem be16_length (w : Word16) : (be16 w).length = 2 := rfl
@[simp] theorem be32_length (v : Word32) : (be32 v).length = 4 := rfl
@[simp] theorem be16n_length (n : Nat) : (be16n n).length = 2 := rfl
@[simp] theorem be32n_length (n : Nat) : (be32n n).length = 4 := rfl

theorem rd16_toNat (h l : Byte) : (rd16 h l).toNat = h.toNat * 256 + l.toNat := by
  have hl := l.isLt
  rw [rd16, BitVec.toNat_append, ← Nat.shiftLeft_add_eq_or_of_lt hl, Nat.shiftLeft_eq]

/-- Reading the two bytes of a written word gives the word. -/
@[simp] theorem rd16_be16 (w : Word16) : rd16 (hi8 w) (lo8 w) = w := by
  apply BitVec.eq_of_toNat_eq
  have hw := w.isLt
  simp only [rd16_toNat, hi8, lo8, BitVec.extractLsb'_toNat, Nat.shiftRight_eq_div_pow]
  omega

@[simp] theorem hi8_rd16 (h l : Byte) : hi8 (rd16 h l) = h := by
  apply BitVec.eq_of_toNat_eq
  have hh := h.isLt
  have hl := l.isLt
  simp only [hi8, BitVec.extractLsb'_toNat, rd16_toNat, Nat.shiftRight_eq_div_pow]
  omega

@[simp] theorem lo8_rd16 (h l : Byte) : lo8 (rd16 h l) = l := by
  apply BitVec.eq_of_toNat_eq
  have hl := l.isLt
  simp only [lo8, BitVec.extractLsb'_toNat, rd16_toNat, Nat.shiftRight_eq_div_pow]
  omega

/-- The two bytes of a word determine it, and are determined by it (R45). -/
theorem be16_rd16 (h l : Byte) : be16 (rd16 h l) = [h, l] := by simp [be16]

/-- A length that fits 16 bits is read back from its field. -/
theorem rd16_be16n {n : Nat} (h : n < 65536) :
    (rd16 (hi8 (BitVec.ofNat 16 n)) (lo8 (BitVec.ofNat 16 n))).toNat = n := by
  rw [rd16_be16, BitVec.toNat_ofNat]; omega

theorem be16n_rd16 (h l : Byte) : be16n (rd16 h l).toNat = [h, l] := by
  rw [be16n, BitVec.ofNat_toNat, BitVec.setWidth_eq, be16_rd16]

theorem rd32_toNat (a b c d : Byte) : (rd32 a b c d).toNat =
    a.toNat * 2 ^ 24 + b.toNat * 2 ^ 16 + c.toNat * 2 ^ 8 + d.toNat := by
  have hb := b.isLt
  have hd := d.isLt
  have hcd : (c ++ d).toNat = c.toNat * 256 + d.toNat := rd16_toNat c d
  have hab : (a ++ b).toNat = a.toNat * 256 + b.toNat := rd16_toNat a b
  have h := (c ++ d).isLt
  rw [rd32, BitVec.toNat_append, ← Nat.shiftLeft_add_eq_or_of_lt h, Nat.shiftLeft_eq, hab, hcd]
  omega

/-- Reading the four bytes of a written word gives the word. -/
theorem rd32_be32 (v : Word32) :
    rd32 (v.extractLsb' 24 8) (v.extractLsb' 16 8) (v.extractLsb' 8 8) (v.extractLsb' 0 8) = v := by
  apply BitVec.eq_of_toNat_eq
  have hv := v.isLt
  simp only [rd32_toNat, BitVec.extractLsb'_toNat, Nat.shiftRight_eq_div_pow]
  omega

theorem be32_rd32 (a b c d : Byte) : be32 (rd32 a b c d) = [a, b, c, d] := by
  have ha := a.isLt
  have hb := b.isLt
  have hc := c.isLt
  have hd := d.isLt
  simp only [be32, List.cons.injEq, and_true]
  refine ⟨?_, ?_, ?_, ?_⟩ <;>
  · apply BitVec.eq_of_toNat_eq
    simp only [BitVec.extractLsb'_toNat, rd32_toNat, Nat.shiftRight_eq_div_pow]
    omega

end Sys2Proof
end

