-- ==== Sys2Proof/Laws/Decode.lean ====
section
/-! SUPPORT. What each operand form of the request decoder reads, and from which bytes; and the operand
form each `OPB` selects. -/

namespace Sys2Proof

/-- Taking and dropping as many elements as the first part has. -/
theorem take_drop_append {α : Type} (a b : List α) :
    (a ++ b).take a.length = a ∧ (a ++ b).drop a.length = b := by simp

/-- The form `LEN`, `SEQ[LEN]` reads back a sequence written with its length. -/
theorem readSeq_written (mk : List Byte → Instr) {seq : List Byte} (h : seq.length < 65536)
    (rest : List Byte) :
    readSeq mk (be16n seq.length ++ seq ++ rest) = .request (mk seq) rest := by
  simp [readSeq, be16n, be16, Nat.mod_eq_of_lt h]

/-- Where the form `LEN`, `SEQ[LEN]` reads a request, the bytes are the sequence with its length. -/
theorem readSeq_request {mk : List Byte → Instr} {bs : List Byte} {i : Instr} {rest : List Byte}
    (h : readSeq mk bs = .request i rest) :
    ∃ seq, i = mk seq ∧ seq.length < 65536 ∧ bs = be16n seq.length ++ seq ++ rest := by
  match bs with
  | [] => simp [readSeq] at h
  | [_] => simp [readSeq] at h
  | a :: b :: bs =>
    simp only [readSeq] at h
    split at h
    · rename_i hle
      simp only [Decoded.request.injEq] at h
      obtain ⟨rfl, rfl⟩ := h
      refine ⟨bs.take (rd16 a b).toNat, rfl, ?_, ?_⟩
      · have := (rd16 a b).isLt
        simp; omega
      · rw [List.length_take, Nat.min_eq_left hle, be16n_rd16]
        simp
    · simp at h

theorem readCmdSeq_cons (mk : Byte → List Byte → Instr) (cmd : Byte) (bs : List Byte) :
    readCmdSeq mk (cmd :: bs) = readSeq (mk cmd) bs := rfl

/-- Where the form `CMD`, `LEN`, `DATA[LEN]` reads a request, the bytes are the command and the data
with its length. -/
theorem readCmdSeq_request {mk : Byte → List Byte → Instr} {bs : List Byte} {i : Instr}
    {rest : List Byte} (h : readCmdSeq mk bs = .request i rest) :
    ∃ cmd seq, i = mk cmd seq ∧ seq.length < 65536 ∧
      bs = cmd :: (be16n seq.length ++ seq ++ rest) := by
  match bs with
  | [] => simp [readCmdSeq] at h
  | cmd :: bs =>
    obtain ⟨seq, hi, hl, rfl⟩ := readSeq_request (readCmdSeq_cons mk cmd bs ▸ h)
    exact ⟨cmd, seq, hi, hl, rfl⟩

theorem flatMap_be32_length (ps : List Word32) : (ps.flatMap be32).length = 4 * ps.length := by
  induction ps with
  | nil => rfl
  | cons p ps ih => rw [List.flatMap_cons, List.length_append, ih, be32_length, List.length_cons]; omega

/-- Numbers written one after another are read back. -/
theorem readWords_written (ps : List Word32) (rest : List Byte) :
    readWords ps.length (ps.flatMap be32 ++ rest) = ps := by
  induction ps with
  | nil => rfl
  | cons p ps ih => simp [be32, readWords, rd32_be32, ih]

/-- As many numbers as are read were written, if the bytes are there. -/
theorem readWords_bytes (n : Nat) (bs : List Byte) (h : 4 * n ≤ bs.length) :
    (readWords n bs).length = n ∧ (readWords n bs).flatMap be32 ++ bs.drop (4 * n) = bs := by
  induction n generalizing bs with
  | zero => simp [readWords]
  | succ n ih =>
    match bs with
    | a :: b :: c :: d :: bs =>
      obtain ⟨h1, h2⟩ := ih bs (by simp at h; omega)
      rw [readWords, List.length_cons, h1, List.flatMap_cons, be32_rd32,
        show 4 * (n + 1) = 4 * n + 4 by omega]
      exact ⟨rfl, by simpa using h2⟩
    | [] | [_] | [_, _] | [_, _, _] => simp at h <;> omega

/-- The form `NB`, `CNT`, `P[..]` reads back a list written with its counts. -/
theorem readPack_written (mk : Nat → List Word32 → Instr) {nb : Nat} {ps : List Word32}
    (hn : nb < 65536) (hp : ps.length < 65536) (rest : List Byte) :
    readPack mk (be16n nb ++ be16n ps.length ++ ps.flatMap be32 ++ rest) =
      .request (mk nb ps) rest := by
  have hd : (ps.flatMap be32 ++ rest).drop (4 * ps.length) = rest := by
    rw [← flatMap_be32_length]; simp
  have hl : 4 * ps.length ≤ (ps.flatMap be32 ++ rest).length := by
    rw [List.length_append, flatMap_be32_length]; omega
  simp only [readPack, be16n, be16, rd16_be16, BitVec.toNat_ofNat, List.cons_append,
    List.nil_append, Nat.mod_eq_of_lt hn, Nat.mod_eq_of_lt hp, Nat.reducePow, if_pos hl,
    readWords_written, hd]

/-- Where the form `NB`, `CNT`, `P[..]` reads a request, the bytes are the list with its counts. -/
theorem readPack_request {mk : Nat → List Word32 → Instr} {bs : List Byte} {i : Instr}
    {rest : List Byte} (h : readPack mk bs = .request i rest) :
    ∃ nb ps, i = mk nb ps ∧ nb < 65536 ∧ ps.length < 65536 ∧
      bs = be16n nb ++ be16n ps.length ++ ps.flatMap be32 ++ rest := by
  match bs with
  | [] | [_] | [_, _] | [_, _, _] => simp [readPack] at h
  | a :: b :: c :: d :: bs =>
    simp only [readPack] at h
    split at h
    · rename_i hle
      simp only [Decoded.request.injEq] at h
      obtain ⟨rfl, rfl⟩ := h
      obtain ⟨h1, h2⟩ := readWords_bytes _ _ hle
      refine ⟨_, _, rfl, (rd16 a b).isLt, by rw [h1]; exact (rd16 c d).isLt, ?_⟩
      rw [h1, be16n_rd16, be16n_rd16, List.append_assoc, h2]
      rfl
    · simp at h

/-! The operand form each `OPB` selects (R63, R64). -/

theorem decode_nil : decode [] = .incomplete .opb := rfl
theorem decode_ckInit (bs : List Byte) : decode (0x00#8 :: bs) = .request .ckInit bs := rfl
theorem decode_ckStep (bs : List Byte) : decode (0x01#8 :: bs) = readByte .ckStep bs := rfl
theorem decode_ckRead (bs : List Byte) : decode (0x02#8 :: bs) = .request .ckRead bs := rfl
theorem decode_ckCompute (bs : List Byte) : decode (0x03#8 :: bs) = readSeq .ckCompute bs := rfl
theorem decode_frBuild (bs : List Byte) : decode (0x04#8 :: bs) = readCmdSeq .frBuild bs := rfl
theorem decode_frParse (bs : List Byte) : decode (0x05#8 :: bs) = readSeq .frParse bs := rfl
theorem decode_frExtract (bs : List Byte) : decode (0x06#8 :: bs) = readCmdSeq .frExtract bs := rfl
theorem decode_plDecode (bs : List Byte) : decode (0x07#8 :: bs) = readSeq .plDecode bs := rfl
theorem decode_zbUnpack (bs : List Byte) : decode (0x08#8 :: bs) = readSeq .zbUnpack bs := rfl
theorem decode_zbPack (bs : List Byte) : decode (0x09#8 :: bs) = readPack .zbPack bs := rfl

/-- An `OPB` is one of the ten operations' or reserved (R62, R66). -/
theorem opb_cases (opb : Byte) :
    opb = 0x00#8 ∨ opb = 0x01#8 ∨ opb = 0x02#8 ∨ opb = 0x03#8 ∨ opb = 0x04#8 ∨ opb = 0x05#8 ∨
    opb = 0x06#8 ∨ opb = 0x07#8 ∨ opb = 0x08#8 ∨ opb = 0x09#8 ∨ reservedOpb opb = true := by
  revert opb; decide

/-- R66: a reserved `OPB` is `IllegalOp`, whatever follows. -/
theorem decode_reserved {opb : Byte} (h : reservedOpb opb = true) (bs : List Byte) :
    decode (opb :: bs) = .request (.illegalOp opb) bs := by
  simp only [reservedOpb, Bool.or_eq_true, bne_iff_ne, ne_eq, decide_eq_true_eq] at h
  have hop : ∀ n, 10 ≤ n → readOp opb n bs = .request (.illegalOp opb) bs
    | _ + 10, _ => rfl
  by_cases h0 : opbRsv opb = 0#4
  · rw [decode, if_pos h0, hop (opbOp opb).toNat (h.resolve_left (not_not_intro h0))]
  · rw [decode, if_neg h0]

end Sys2Proof
end

