-- ==== Sys2Proof/Laws/State.lean ====
section
/-! SUPPORT. One lemma per field per update of the state, true by `rfl`, so that no proof unfolds a
record update. -/

namespace Sys2Proof.Machine

variable (s : State) (v : Word16) (st : Status) (b : Byte) (r : List Byte)

/-! `ACC <- v` -/
@[simp] theorem State.setAcc_acc : (s.setAcc v).acc = v := rfl
@[simp] theorem State.setAcc_rqb : (s.setAcc v).rqb = s.rqb := rfl
@[simp] theorem State.setAcc_rqbLater : (s.setAcc v).rqbLater = s.rqbLater := rfl
@[simp] theorem State.setAcc_rsq : (s.setAcc v).rsq = s.rsq := rfl
@[simp] theorem State.setAcc_script : (s.setAcc v).script = s.script := rfl
@[simp] theorem State.setAcc_received : (s.setAcc v).received = s.received := rfl

/-! `RQB <- []` -/
@[simp] theorem State.retire_acc : s.retire.acc = s.acc := rfl
@[simp] theorem State.retire_rqb : s.retire.rqb = [] := rfl
@[simp] theorem State.retire_rqbLater : s.retire.rqbLater = s.rqbLater := rfl
@[simp] theorem State.retire_rsq : s.retire.rsq = s.rsq := rfl
@[simp] theorem State.retire_script : s.retire.script = s.script := rfl
@[simp] theorem State.retire_received : s.retire.received = s.received := rfl

/-! `respond(st, r)` -/
@[simp] theorem State.respond_acc : (s.respond st r).acc = s.acc := rfl
@[simp] theorem State.respond_rqb : (s.respond st r).rqb = s.rqb := rfl
@[simp] theorem State.respond_rqbLater : (s.respond st r).rqbLater = s.rqbLater := rfl
@[simp] theorem State.respond_rsq : (s.respond st r).rsq = s.rsq ++ st.code :: r := rfl
@[simp] theorem State.respond_script : (s.respond st r).script = s.script := rfl
@[simp] theorem State.respond_received : (s.respond st r).received = s.received := rfl

/-! An answered request -/
@[simp] theorem State.answered_acc : (s.answered b r).acc = s.acc := rfl
@[simp] theorem State.answered_rqb : (s.answered b r).rqb = [] := rfl
@[simp] theorem State.answered_rqbLater : (s.answered b r).rqbLater = s.rqbLater := rfl
@[simp] theorem State.answered_rsq : (s.answered b r).rsq = s.rsq ++ b :: r := rfl
@[simp] theorem State.answered_script : (s.answered b r).script = s.script := rfl
@[simp] theorem State.answered_received : (s.answered b r).received = s.received := rfl

/-! Reset -/
@[simp] theorem State.resetBlock_acc : s.resetBlock.acc = 0x147A#16 := rfl
@[simp] theorem State.resetBlock_rqb : s.resetBlock.rqb = [] := rfl
@[simp] theorem State.resetBlock_rqbLater : s.resetBlock.rqbLater = [] := rfl
@[simp] theorem State.resetBlock_rsq : s.resetBlock.rsq = [] := rfl
@[simp] theorem State.resetBlock_script : s.resetBlock.script = s.script := rfl
@[simp] theorem State.resetBlock_received : s.resetBlock.received = s.received := rfl

/-! Bytes set apart as later requests -/
@[simp] theorem State.setApart_acc : (s.setApart r).acc = s.acc := rfl
@[simp] theorem State.setApart_rqb : (s.setApart r).rqb = s.rqb := rfl
@[simp] theorem State.setApart_rqbLater : (s.setApart r).rqbLater = r ++ s.rqbLater := rfl
@[simp] theorem State.setApart_rsq : (s.setApart r).rsq = s.rsq := rfl
@[simp] theorem State.setApart_script : (s.setApart r).script = s.script := rfl
@[simp] theorem State.setApart_received : (s.setApart r).received = s.received := rfl
@[simp] theorem State.setApart_nil : s.setApart [] = s := rfl

end Sys2Proof.Machine
end

