-- ==== Sys2Proof/Laws/Ops.lean ====
section
/-! SUPPORT. What each shared operation answers, said once. -/

namespace Sys2Proof.Machine

/-- The end of a request answers the state in which it has left `RQB` and its response is queued. -/
theorem finish_answers (st : Status) (r : List Byte) (s : State) :
    finish st r s = .next (s.answered st.code r) := rfl

theorem respondOk_answers (r : List Byte) (s : State) :
    respondOk r s = .next (s.answered 0x00#8 r) := rfl

/-- R203: an error changes no state but `RQB` and `RSQ`. -/
theorem raise_answers (st : Status) (info : List Byte) (s : State) :
    raise st info s = .next (s.answered st.code info) := rfl

/-- R65: within the limit the operation itself runs. -/
theorem limited_of_le {n : Nat} (h : n ≤ Config.maxLen) (body : State → Answer) (s : State) :
    limited n body s = body s := by simp [limited, Nat.not_lt.mpr h]

/-- R65: above the limit the answer is `Overlength`. -/
theorem limited_of_lt {n : Nat} (h : Config.maxLen < n) (body : State → Answer) (s : State) :
    limited n body s = .next (s.answered 0x82#8 []) := by simp [limited, h]; rfl

/-- Everything the length limit can do. -/
theorem limited_cases (n : Nat) (body : State → Answer) (s : State) :
    (n ≤ Config.maxLen ∧ limited n body s = body s) ∨
    (Config.maxLen < n ∧ limited n body s = .next (s.answered 0x82#8 [])) := by
  rcases Nat.lt_or_ge Config.maxLen n with h | h
  · exact .inr ⟨h, limited_of_lt h body s⟩
  · exact .inl ⟨h, limited_of_le h body s⟩

/-- R142: what `FR.PARSE` answers to a parse result. -/
theorem respondParsed_answers (r : Except FrameError Frame) (s : State) :
    respondParsed r s =
      match r with
      | .error e => .next (s.answered e.status.code [])
      | .ok f => .next (s.answered 0x00#8 (f.command :: withLength f.data)) := by
  cases r <;> rfl

/-- R175: what `PL.DECODE` answers to a decode result. -/
theorem respondDecoded_answers (r : Except DecodeError DecodedPayload) (s : State) :
    respondDecoded r s =
      match r with
      | .ok (.deviceInfo t v l) => .next (s.answered 0x00#8
          ([0x7E#8, t.code, t.flag, l.code, l.flag, BitVec.ofNat 8 v.length] ++ v))
      | .ok (.zoneBitmap z) => .next (s.answered 0x00#8 (0x0A#8 :: withCount z))
      | .error (.unsupportedCommand p) => .next (s.answered 0x11#8 (withLength p))
      | .error (.malformedPayload p) => .next (s.answered 0x12#8 (withLength p)) := by
  rcases r with (_ | _) | (_ | _) <;> rfl

/-- The check of R177 fails exactly where some partition number is 0 or above `8*NB`. -/
theorem badPartition_any {nb : Nat} {ps : List Word32} :
    ps.any (badPartition nb) = true ↔ ∃ p ∈ ps, p.toNat = 0 ∨ 8 * nb < p.toNat := by
  simp [List.any_eq_true, badPartition]

/-- R178: what `ZB.PACK` answers within the length limit. -/
theorem respondPacked_cases (nb : Nat) (ps : List Word32) (s : State) :
    (ps.any (badPartition nb) = true ∧
      respondPacked nb ps s = .next (s.answered 0x83#8 [])) ∨
    (ps.any (badPartition nb) = false ∧
      respondPacked nb ps s = .next (s.answered 0x00#8 (be16n nb ++ zonePack nb ps))) := by
  unfold respondPacked
  cases ps.any (badPartition nb)
  · exact .inr ⟨rfl, rfl⟩
  · exact .inl ⟨rfl, rfl⟩

/-- R7: the bounds of `MAX_LEN`. -/
theorem maxLen_bounds : 14 ≤ Config.maxLen ∧ Config.maxLen < 65536 := by
  unfold Config.maxLen; omega

end Sys2Proof.Machine
end

