-- ==== Sys2Proof/Laws/PerInstr.lean ====
section
/-! SUPPORT. One lemma per constructor of `Instr`: a well-formed instruction is carried to the block by a
well-formed request (43_payload_decoder.md R175: `PL.DECODE` for a row of the payload command space). -/

namespace Sys2Proof.Laws.CarriedRequest

/-- The request that carries a well-formed instruction is a well-formed request. -/
def Statement (i : Instr) : Prop :=
  i.wellFormed = true → i.asRequest.wellFormed = true ∧ i.asRequest.isRequest = true

theorem ckInit : Statement .ckInit := fun h => ⟨h, rfl⟩
theorem ckStep (b : Byte) : Statement (.ckStep b) := fun h => ⟨h, rfl⟩
theorem ckRead : Statement .ckRead := fun h => ⟨h, rfl⟩
theorem ckCompute (seq : List Byte) : Statement (.ckCompute seq) := fun h => ⟨h, rfl⟩
theorem frBuild (cmd : Byte) (data : List Byte) : Statement (.frBuild cmd data) := fun h => ⟨h, rfl⟩
theorem frParse (bytes : List Byte) : Statement (.frParse bytes) := fun h => ⟨h, rfl⟩
theorem frExtract (cmd : Byte) (data : List Byte) : Statement (.frExtract cmd data) :=
  fun h => ⟨h, rfl⟩
theorem plDecode (payload : List Byte) : Statement (.plDecode payload) := fun h => ⟨h, rfl⟩
theorem zbUnpack (data : List Byte) : Statement (.zbUnpack data) := fun h => ⟨h, rfl⟩
theorem zbPack (nb : Nat) (ps : List Word32) : Statement (.zbPack nb ps) := fun h => ⟨h, rfl⟩
theorem illegalOp (opb : Byte) : Statement (.illegalOp opb) := fun h => ⟨h, rfl⟩
theorem payload7E (rest : List Byte) : Statement (.payload7E rest) := fun h => ⟨h, rfl⟩
theorem payload0A (data : List Byte) : Statement (.payload0A data) := fun h => ⟨h, rfl⟩
theorem payloadOther (cmd : Byte) (rest : List Byte) : Statement (.payloadOther cmd rest) := by
  intro h
  simp only [Instr.wellFormed, Bool.and_eq_true] at h
  exact ⟨h.2, rfl⟩

end Sys2Proof.Laws.CarriedRequest
end

