-- ==== Sys2Proof/Laws/Step.lean ====
section
/-! SUPPORT. Who moves and what a step does, said once. -/

namespace Sys2Proof.Machine

/-- Without a reset next, the move is the block's choice. -/
theorem State.nextMove_of_noReset {s : State} (h : s.noReset) : s.nextMove = s.blockMove := by
  unfold State.nextMove
  split
  · exact absurd ‹_› (h _)
  all_goals rfl

/-- With a reset next, the environment moves. -/
theorem State.nextMove_of_reset {s : State} {q : List HostAct} (h : s.script = .rst :: q) :
    s.nextMove = .host := by simp [State.nextMove, h]

theorem State.blockMove_request {s : State} {i : Instr} {rest : List Byte}
    (h : decode s.rqb = .request i rest) :
    s.blockMove = if s.rsq.isEmpty then .execute i rest else s.hostMove := by
  simp [State.blockMove, h]

theorem State.blockMove_incomplete {s : State} {why : Missing}
    (h : decode s.rqb = .incomplete why) :
    s.blockMove = if s.rqbLater.isEmpty then s.hostMove else .advance := by
  simp [State.blockMove, h]

/-- A host move is the environment's next act or a wait. -/
theorem State.hostMove_cases (s : State) : s.hostMove = .host ∨ s.hostMove = .wait := by
  unfold State.hostMove
  split
  all_goals first | (split <;> simp) | simp

/-- Everything a step can do. -/
theorem step_cases (s : State) :
    (s.nextMove = .host ∧ step s = .next s.hostAct) ∨
    (s.nextMove = .advance ∧ step s = .next s.advance) ∨
    (∃ i rest, s.nextMove = .execute i rest ∧ step s = exec i (s.setApart rest)) ∨
    (s.nextMove = .wait ∧ step s = .next s) := by
  unfold step
  cases s.nextMove <;> simp

/-- When a waiting byte comes up: an incomplete request in `rqb` and later bytes behind it. -/
theorem State.nextMove_advance {s : State} (h : s.nextMove = .advance) :
    s.noReset ∧ (∃ why, decode s.rqb = .incomplete why) ∧ s.rqbLater ≠ [] := by
  have hr : s.noReset := by
    intro q hq
    simp [State.nextMove_of_reset hq] at h
  rw [State.nextMove_of_noReset hr] at h
  rcases hd : decode s.rqb with ⟨i, rest⟩ | why
  · rw [State.blockMove_request hd] at h
    split at h
    · simp at h
    · rcases s.hostMove_cases with h' | h' <;> simp [h'] at h
  · rw [State.blockMove_incomplete hd] at h
    split at h
    · rcases s.hostMove_cases with h' | h' <;> simp [h'] at h
    · exact ⟨hr, ⟨why, rfl⟩, by simpa using ‹¬s.rqbLater.isEmpty = true›⟩

/-- When the block executes: the request `RQB` begins with, while `RSQ` is empty (R24). -/
theorem State.nextMove_execute {s : State} {i : Instr} {rest : List Byte}
    (h : s.nextMove = .execute i rest) :
    s.noReset ∧ decode s.rqb = .request i rest ∧ s.rsq = [] := by
  have hr : s.noReset := by
    intro q hq
    simp [State.nextMove_of_reset hq] at h
  rw [State.nextMove_of_noReset hr] at h
  rcases hd : decode s.rqb with ⟨j, rest'⟩ | why
  · rw [State.blockMove_request hd] at h
    split at h
    · simp only [Move.execute.injEq] at h
      obtain ⟨rfl, rfl⟩ := h
      exact ⟨hr, rfl, by simpa using ‹s.rsq.isEmpty = true›⟩
    · rcases s.hostMove_cases with h' | h' <;> simp [h'] at h
  · rw [State.blockMove_incomplete hd] at h
    split at h
    · rcases s.hostMove_cases with h' | h' <;> simp [h'] at h
    · simp at h

/-! One lemma per act of the environment. -/

theorem State.hostAct_write {s : State} {b : Byte} {q : List HostAct}
    (h : s.script = .write b :: q) :
    s.hostAct = ({ s with script := q }).hostWrite b := by
  unfold State.hostAct
  rw [h]

theorem State.hostAct_read_nil {s : State} {q : List HostAct}
    (h : s.script = .read :: q) (hr : s.rsq = []) : s.hostAct = { s with script := q } := by
  simp [State.hostAct, h, State.hostRead, hr]

theorem State.hostAct_read_cons {s : State} {b : Byte} {bs : List Byte} {q : List HostAct}
    (h : s.script = .read :: q) (hr : s.rsq = b :: bs) :
    s.hostAct = { s with rsq := bs, received := s.received ++ [b], script := q } := by
  simp [State.hostAct, h, State.hostRead, hr]

theorem State.hostAct_rst {s : State} {q : List HostAct} (h : s.script = .rst :: q) :
    s.hostAct =
      { s with acc := 0x147A#16, rqb := [], rqbLater := [], rsq := [], script := q } := by
  simp [State.hostAct, h, State.resetBlock, State.reset, Config.init]

theorem State.hostAct_idle {s : State} {q : List HostAct} (h : s.script = .idle :: q) :
    s.hostAct = { s with script := q } := by
  simp [State.hostAct, h]

/-! The two parts of `RQB` -/

theorem State.complete_iff {s : State} :
    s.complete = true ↔ ∃ i rest, decode s.rqb = .request i rest := by
  unfold State.complete
  split <;> simp_all

/-- A write while no request is complete and none waits. -/
theorem State.hostWrite_incomplete {s : State} {why : Missing} (hd : decode s.rqb = .incomplete why)
    (hl : s.rqbLater = []) (b : Byte) : s.hostWrite b = { s with rqb := s.rqb ++ [b] } := by
  simp [State.hostWrite, State.complete, hd, hl]

/-- A write behind a complete request. -/
theorem State.hostWrite_complete {s : State} {i : Instr} {rest : List Byte}
    (hd : decode s.rqb = .request i rest) (b : Byte) :
    s.hostWrite b = { s with rqbLater := s.rqbLater ++ [b] } := by
  simp [State.hostWrite, State.complete, hd]

/-- R22: a host write appends its byte to `RQB`, whichever part takes it. -/
theorem State.hostWrite_wholeRqb (s : State) (b : Byte) :
    (s.hostWrite b).wholeRqb = s.wholeRqb ++ [b] := by
  unfold State.hostWrite
  split
  · simp [State.wholeRqb]
  · simp_all [State.wholeRqb]

theorem State.advance_cons {s : State} {b : Byte} {bs : List Byte} (h : s.rqbLater = b :: bs) :
    s.advance = { s with rqb := s.rqb ++ [b], rqbLater := bs } := by
  simp [State.advance, h]

/-- A byte that comes up stays in `RQB`. -/
@[simp] theorem State.advance_wholeRqb (s : State) : s.advance.wholeRqb = s.wholeRqb := by
  unfold State.advance
  split <;> simp_all [State.wholeRqb]

end Sys2Proof.Machine
end

