-- ==== Sys2Proof/Tests/Slice0.lean ====
section
/-! SUPPORT. The model's own tests, expected values from spec/95_test_vectors.md and the rules' examples,
and a witness for the hypotheses of each obligation that has some. -/

open Sys2Proof Sys2Proof.Machine

namespace Sys2Proof.Tests

/-! ### Well-formedness: an ill-formed term for each check is refused -/

/-- A list's length fits or not as its number says, without building the list. -/
theorem fits16_replicate {α : Type} (n : Nat) (x : α) :
    fits16 (List.replicate n x).length = fits16 n := by rw [List.length_replicate]
theorem fits16_replicate_succ {α : Type} (n : Nat) (x : α) :
    fits16 ((List.replicate n x).length + 1) = fits16 (n + 1) := by rw [List.length_replicate]

theorem test_wf_refuses_long_compute :
    (Instr.ckCompute (List.replicate 65536 0#8)).wellFormed = false := by
  rw [Instr.wellFormed, fits16_replicate]; decide
theorem test_wf_refuses_long_build :
    (Instr.frBuild 0#8 (List.replicate 65536 0#8)).wellFormed = false := by
  rw [Instr.wellFormed, fits16_replicate]; decide
theorem test_wf_refuses_long_parse :
    (Instr.frParse (List.replicate 65536 0#8)).wellFormed = false := by
  rw [Instr.wellFormed, fits16_replicate]; decide
theorem test_wf_refuses_long_extract :
    (Instr.frExtract 0#8 (List.replicate 65536 0#8)).wellFormed = false := by
  rw [Instr.wellFormed, fits16_replicate]; decide
theorem test_wf_refuses_long_decode :
    (Instr.plDecode (List.replicate 65536 0#8)).wellFormed = false := by
  rw [Instr.wellFormed, fits16_replicate]; decide
theorem test_wf_refuses_long_unpack :
    (Instr.zbUnpack (List.replicate 65536 0#8)).wellFormed = false := by
  rw [Instr.wellFormed, fits16_replicate]; decide
theorem test_wf_refuses_wide_pack : (Instr.zbPack 65536 []).wellFormed = false := by decide
theorem test_wf_refuses_long_pack :
    (Instr.zbPack 0 (List.replicate 65536 0#32)).wellFormed = false := by
  rw [Instr.wellFormed, fits16_replicate]; decide
theorem test_wf_refuses_legal_opb : (Instr.illegalOp 0x09#8).wellFormed = false := by decide
theorem test_wf_refuses_long_payload7E :
    (Instr.payload7E (List.replicate 65535 0#8)).wellFormed = false := by
  rw [Instr.wellFormed, fits16_replicate_succ]; decide
theorem test_wf_refuses_long_payload0A :
    (Instr.payload0A (List.replicate 65535 0#8)).wellFormed = false := by
  rw [Instr.wellFormed, fits16_replicate_succ]; decide
theorem test_wf_refuses_other_7E : (Instr.payloadOther 0x7E#8 []).wellFormed = false := by decide
theorem test_wf_refuses_other_0A : (Instr.payloadOther 0x0A#8 []).wellFormed = false := by decide
theorem test_wf_refuses_long_other :
    (Instr.payloadOther 0#8 (List.replicate 65535 0#8)).wellFormed = false := by
  rw [Instr.wellFormed, fits16_replicate_succ]; decide

/-! ### Decoding: one word of each constructor, written out from R62 to R64, R66 and R72 -/

/-- `RSV` = 0000, `OP` = 0000 (R108). -/
theorem test_decode_ckInit : decode [0b00000000#8] = .request .ckInit [] := by decide
/-- 95, V-K3. -/
theorem test_decode_ckStep : decode [0b00000001#8, 0x7E#8] = .request (.ckStep 0x7E#8) [] := by decide
/-- 95, V-K7. -/
theorem test_decode_ckRead : decode [0b00000010#8] = .request .ckRead [] := by decide
/-- 95, V-K11, with the next request's first byte after it. -/
theorem test_decode_ckCompute :
    decode [0b00000011#8, 0x00#8, 0x02#8, 0xFE#8, 0xFE#8, 0x02#8] =
      .request (.ckCompute [0xFE#8, 0xFE#8]) [0x02#8] := by decide
/-- 95, V-B2. -/
theorem test_decode_frBuild : decode [0b00000100#8, 0x0A#8, 0x00#8, 0x01#8, 0x01#8] =
    .request (.frBuild 0x0A#8 [0x01#8]) [] := by decide
/-- R142. -/
theorem test_decode_frParse : decode [0b00000101#8, 0x00#8, 0x02#8, 0xFE#8, 0x0D#8] =
    .request (.frParse [0xFE#8, 0x0D#8]) [] := by decide
/-- 95, V-E1. -/
theorem test_decode_frExtract : decode [0b00000110#8, 0x0A#8, 0x00#8, 0x01#8, 0x01#8] =
    .request (.frExtract 0x0A#8 [0x01#8]) [] := by decide
/-- 95, V-P11. -/
theorem test_decode_plDecode : decode [0b00000111#8, 0x00#8, 0x02#8, 0x0A#8, 0x80#8] =
    .request (.plDecode [0x0A#8, 0x80#8]) [] := by decide
/-- 95, V-Z3. -/
theorem test_decode_zbUnpack : decode [0b00001000#8, 0x00#8, 0x02#8, 0x00#8, 0x80#8] =
    .request (.zbUnpack [0x00#8, 0x80#8]) [] := by decide
/-- R64: `NB` before `CNT`, each high byte first, and the four bytes of a number, high byte first. -/
theorem test_decode_zbPack :
    decode [0b00001001#8, 0x01#8, 0x02#8, 0x00#8, 0x01#8, 0x12#8, 0x34#8, 0x56#8, 0x78#8] =
      .request (.zbPack 0x102 [0x12345678#32]) [] := by decide
/-- 95, V-X4: the byte after an illegal `OPB` is a new `OPB`. -/
theorem test_decode_illegalOp :
    decode [0x0F#8, 0x00#8] = .request (.illegalOp 0x0F#8) [0x00#8] := by decide
/-- R72, R165. -/
theorem test_decode_payload7E :
    decodePayload [0x7E#8, 0x02#8] = some (.payload7E [0x02#8]) := by decide
/-- 95, V-P10. -/
theorem test_decode_payload0A :
    decodePayload [0x0A#8, 0x01#8] = some (.payload0A [0x01#8]) := by decide
/-- 95, V-P15; an empty payload has no command byte (R160). -/
theorem test_decode_payloadOther :
    decodePayload [0xFF#8, 0x01#8] = some (.payloadOther 0xFF#8 [0x01#8]) ∧
    decodePayload [] = none := by decide
/-- R60: a request without all its bytes is not complete. -/
theorem test_decode_incomplete :
    decode [] = .incomplete .opb ∧ decode [0x01#8] = .incomplete .fields ∧
    decode [0x03#8, 0x00#8] = .incomplete .fields ∧
    decode [0x03#8, 0x00#8, 0x05#8, 0x01#8, 0x02#8] = .incomplete .operands := by decide
/-- R62, the table's masks: the rows of the reserved space, and a payload's command byte as an `OPB`. -/
theorem test_decodeTableWord :
    decodeTableWord 8 0x09 = some (.zbPack 0 []) ∧ decodeTableWord 8 0x0A = some (.illegalOp 0x0A#8) ∧
    decodeTableWord 8 0x7E = some (.illegalOp 0x7E#8) ∧
    decodeTableWord 32 0x02007E04 = some (.frBuild 0x7E#8 [0x00#8, 0x00#8]) := by decide
/-- R75: "Example: `FR.BUILD 0x7E, []` assembles to `04 7E 00 00`." -/
theorem test_assembler : asmLine (.frBuild 0x7E#8 []) = "FR.BUILD 0x7E, []" ∧
    encode (.frBuild 0x7E#8 []) = [0x04#8, 0x7E#8, 0x00#8, 0x00#8] := by decide

/-! ### One step on a small state -/

/-- A state with this accumulator and request, all else as after reset. -/
def having (acc : Word16) (request : List Byte) : State :=
  { State.reset with acc := acc, rqb := request }

/-- The answer is this next state. -/
def goesTo (a : Answer) (t : State) : Bool :=
  match a with
  | .next u => u = t
  | .fault _ | .refused _ => false

/-- A step of `having acc request` executes the request: `ACC` becomes `acc'` and the response is
`response`. -/
def answersWith (acc : Word16) (request : List Byte) (acc' : Word16) (response : List Byte) : Bool :=
  goesTo (step (having acc request)) { State.reset with acc := acc', rsq := response }

/-- 95, V-K1. -/
theorem test_ckInit : answersWith 0xD860#16 [0x00#8] 0x147A#16 [0x00#8] := by decide
/-- 95, V-K6: bit 15 goes round, and a carry is lost. -/
theorem test_ckStep : answersWith 0x8000#16 [0x01#8, 0xFF#8] 0x01FC#16 [0x00#8] := by decide
/-- 95, V-K3. -/
theorem test_ckStep_reset : answersWith 0x147A#16 [0x01#8, 0x7E#8] 0xD860#16 [0x00#8] := by decide
/-- 95, V-K7. -/
theorem test_ckRead : answersWith 0xD860#16 [0x02#8] 0xD860#16 [0x00#8, 0xD8#8, 0x60#8] := by decide
/-- 95, V-K9: `ACC` is neither read nor written. -/
theorem test_ckCompute : answersWith 0x1234#16 [0x03#8, 0x00#8, 0x01#8, 0x7E#8] 0x1234#16
    [0x00#8, 0xD8#8, 0x60#8] := by decide
/-- 95, V-C39. -/
theorem test_compute_three : compute [0xFF#8, 0x01#8, 0x02#8] = 0x634D#16 := by decide
/-- 95, V-B4: `FE 0D` inside the frame is not escaped. -/
theorem test_frBuild : answersWith 0x147A#16 [0x04#8, 0xFE#8, 0x00#8, 0x01#8, 0x0D#8] 0x147A#16
    [0x00#8, 0x00#8, 0x08#8, 0xFE#8, 0xFE#8, 0xFE#8, 0x0D#8, 0x4E#8, 0x99#8, 0xFE#8, 0x0D#8] := by
  decide
/-- 95, V-X7: with `MAX_LEN` 16 a frame of 17 bytes is `Overlength`. -/
theorem test_frBuild_overlength (h : Config.maxLen = 16) (s : State) :
    exec (.frBuild 0x7E#8 (List.replicate 10 0#8)) s = .next (s.answered 0x82#8 []) :=
  limited_of_lt (by simp [h]) _ s
/-- 95, V-F13: an inner `FE 0D` is not a footer. -/
theorem test_frParse : answersWith 0x147A#16
    [0x05#8, 0x00#8, 0x08#8, 0xFE#8, 0xFE#8, 0xFE#8, 0x0D#8, 0x4E#8, 0x99#8, 0xFE#8, 0x0D#8] 0x147A#16
    [0x00#8, 0xFE#8, 0x00#8, 0x01#8, 0x0D#8] := by decide
/-- 95, V-F4, V-F5, V-F6, V-F7, V-F9a, V-F15. -/
theorem test_parseFrame_errors :
    parseFrame [0xFE#8, 0xFE#8, 0x7E#8, 0xD8#8, 0x60#8] = .error .tooShort ∧
    parseFrame [0xFE#8, 0xFE#8, 0x14#8, 0x7A#8, 0xFE#8, 0x0D#8] = .error .tooShort ∧
    parseFrame [0xFE#8, 0xFE#8, 0x00#8, 0x00#8, 0xFE#8, 0x0D#8] = .error .checksumMismatch ∧
    parseFrame [0x00#8, 0x00#8, 0x00#8, 0x00#8, 0x00#8, 0x00#8] = .error .badHeader ∧
    parseFrame [0xFE#8, 0xFE#8, 0x7E#8, 0xD8#8, 0x60#8, 0xFE#8] = .error .badFooter ∧
    parseFrame [0xFE#8, 0xFE#8, 0x7E#8, 0x60#8, 0xD8#8, 0xFE#8, 0x0D#8] =
      .error .checksumMismatch := ⟨rfl, rfl, rfl, rfl, rfl, rfl⟩
/-- 95, V-E1. -/
theorem test_frExtract : answersWith 0x147A#16 [0x06#8, 0x0A#8, 0x00#8, 0x01#8, 0x01#8] 0x147A#16
    [0x00#8, 0x00#8, 0x02#8, 0x0A#8, 0x01#8] := by decide
/-- 95, V-P12. -/
theorem test_plDecode_zones : answersWith 0x147A#16
    [0x07#8, 0x00#8, 0x03#8, 0x0A#8, 0x01#8, 0x01#8] 0x147A#16
    [0x00#8, 0x0A#8, 0x00#8, 0x00#8, 0x00#8, 0x02#8, 0x00#8, 0x00#8, 0x00#8, 0x01#8,
      0x00#8, 0x00#8, 0x00#8, 0x09#8] := by decide
/-- 95, V-P17: the empty payload. -/
theorem test_plDecode_empty : answersWith 0x147A#16 [0x07#8, 0x00#8, 0x00#8] 0x147A#16
    [0x12#8, 0x00#8, 0x00#8] := by decide
/-- 95, V-P4: version "1.23 2012-05-27", type `48` known, language `07` unknown. -/
theorem test_payload7E : goesTo
    (exec (.payload7E [0x48#8, 0x01#8, 0x02#8, 0x03#8, 0x02#8, 0x00#8, 0x01#8, 0x02#8, 0x00#8, 0x05#8,
      0x02#8, 0x07#8, 0x07#8]) State.reset)
    { State.reset with rsq := [0x00#8, 0x7E#8, 0x48#8, 0x01#8, 0x07#8, 0x00#8, 0x0F#8, 0x31#8, 0x2E#8,
      0x32#8, 0x33#8, 0x20#8, 0x32#8, 0x30#8, 0x31#8, 0x32#8, 0x2D#8, 0x30#8, 0x35#8, 0x2D#8, 0x32#8,
      0x37#8] } := by decide
/-- 95, V-P8, R168: bytes above 9 are rendered by the OPEN parameter, in their places. -/
theorem test_version_open : version [12#8, 0#8, 0#8, 0#8, 0#8, 0#8, 0#8, 0#8, 0#8, 0#8, 255#8] =
    Config.renderDigit 12#8 ++
      [0x2E#8, 0x30#8, 0x30#8, 0x20#8, 0x30#8, 0x30#8, 0x30#8, 0x30#8, 0x2D#8, 0x30#8, 0x30#8, 0x2D#8,
        0x30#8] ++ Config.renderDigit 255#8 := by
  simp [version, substitute, Config.versionPattern, render]
/-- 95, V-P11. -/
theorem test_payload0A : goesTo (exec (.payload0A [0x80#8]) State.reset)
    { State.reset with
      rsq := [0x00#8, 0x0A#8, 0x00#8, 0x00#8, 0x00#8, 0x01#8, 0x00#8, 0x00#8, 0x00#8, 0x08#8] } := by
  decide
/-- 95, V-P15. -/
theorem test_payloadOther : goesTo (exec (.payloadOther 0xFF#8 [0x01#8, 0x02#8]) State.reset)
    { State.reset with rsq := [0x11#8, 0x00#8, 0x03#8, 0xFF#8, 0x01#8, 0x02#8] } := by decide
/-- 95, V-Z4. -/
theorem test_zbUnpack : answersWith 0x147A#16 [0x08#8, 0x00#8, 0x03#8, 0x05#8, 0x00#8, 0xA0#8] 0x147A#16
    [0x00#8, 0x00#8, 0x00#8, 0x00#8, 0x04#8, 0x00#8, 0x00#8, 0x00#8, 0x01#8, 0x00#8, 0x00#8, 0x00#8,
      0x03#8, 0x00#8, 0x00#8, 0x00#8, 0x16#8, 0x00#8, 0x00#8, 0x00#8, 0x18#8] := by decide
/-- 95, V-Z11: order and repeats do not matter. -/
theorem test_zbPack : answersWith 0x147A#16
    [0x09#8, 0x00#8, 0x02#8, 0x00#8, 0x03#8, 0x00#8, 0x00#8, 0x00#8, 0x09#8, 0x00#8, 0x00#8, 0x00#8,
      0x01#8, 0x00#8, 0x00#8, 0x00#8, 0x09#8] 0x147A#16
    [0x00#8, 0x00#8, 0x02#8, 0x01#8, 0x01#8] := by decide
/-- 95, V-Z8, V-Z9, V-Z10 and V-Z7. -/
theorem test_zbPack_bounds :
    [1, 2].map (fun n => goesTo (exec (.zbPack 1 [BitVec.ofNat 32 (7 + n)]) State.reset)
      (State.reset.answered 0x83#8 [])) = [false, true] ∧
    goesTo (exec (.zbPack 1 [0#32]) State.reset) (State.reset.answered 0x83#8 []) = true ∧
    goesTo (exec (.zbPack 0 [1#32]) State.reset) (State.reset.answered 0x83#8 []) = true ∧
    goesTo (exec (.zbPack 1 [8#32]) State.reset)
      (State.reset.answered 0x00#8 [0x00#8, 0x01#8, 0x80#8]) = true := by decide
/-- 95, P4 step 3. -/
theorem test_illegalOp : answersWith 0xD860#16 [0x0C#8] 0xD860#16 [0x81#8] := by decide
/-- 95, P5 step 4: reset discards a partly received request. -/
theorem test_rst : goesTo
    (step { having 0xD860#16 [0x03#8, 0x00#8, 0x05#8, 0x01#8, 0x02#8] with script := [.rst] })
    State.reset := by decide
/-- R24: an unread response holds the next request. -/
theorem test_hold : goesTo (step { having 0x147A#16 [0x02#8] with rsq := [0x00#8] })
    { having 0x147A#16 [0x02#8] with rsq := [0x00#8] } := by decide
/-- R22, R239: a byte written while a request is held waits behind it in `RQB`, as a later request. -/
theorem test_later_requests_wait : goesTo
    (step { having 0x147A#16 [0x02#8] with rsq := [0x00#8], script := [.write 0x00#8] })
    { having 0x147A#16 [0x02#8] with rqbLater := [0x00#8], rsq := [0x00#8] } := by decide
/-- R22, R239, R49: the request executes, `rqb` is empty, and the later request waits on. -/
theorem test_later_request_stays : goesTo
    (step { having 0x147A#16 [0x02#8] with rqbLater := [0x00#8] })
    { State.reset with rqbLater := [0x00#8], rsq := [0x00#8, 0x14#8, 0x7A#8] } := by decide
/-- The step runs the table word placed in `RQB` as the first request after reset. -/
theorem test_withFetchWord : goesTo (step (State.reset.withFetchWord 8 0x02))
    { State.reset with rsq := [0x00#8, 0x14#8, 0x7A#8] } := by decide

/-! ### Witnesses: the hypotheses of each obligation can be met -/

/-- Hypotheses within the length limit, at its boundary. -/
theorem witness_within_maxLen : (List.replicate Config.maxLen 0#8).length ≤ Config.maxLen ∧
    (List.replicate (Config.maxLen - 7) 0#8).length + 7 ≤ Config.maxLen ∧
    (List.replicate (Config.maxLen - 1) 0#8).length + 1 ≤ Config.maxLen ∧
    14 + (List.replicate (Config.maxLen - 14) 0#8).length ≤ Config.maxLen := by
  have := maxLen_bounds
  simp only [List.length_replicate]; omega

/-- Hypotheses above the length limit, at its boundary. -/
theorem witness_above_maxLen : Config.maxLen < (List.replicate (Config.maxLen + 1) 0#8).length ∧
    Config.maxLen < (List.replicate (Config.maxLen - 6) 0#8).length + 7 ∧
    Config.maxLen < (List.replicate Config.maxLen 0#8).length + 1 := by
  have := maxLen_bounds
  simp only [List.length_replicate]; omega

theorem witness_DecodeReadsEncodedRequest :
    (Instr.zbPack 65535 [0xFFFFFFFF#32]).wellFormed = true ∧
    (Instr.zbPack 65535 [0xFFFFFFFF#32]).isRequest = true ∧
    (Instr.illegalOp 0x0A#8).wellFormed = true ∧ (Instr.illegalOp 0xFF#8).wellFormed = true := by decide
theorem witness_DecodedBytesAreTheEncoding :
    decode [0x03#8, 0x00#8, 0x01#8, 0x07#8, 0x09#8] = .request (.ckCompute [0x07#8]) [0x09#8] := by
  decide
theorem witness_RequestStreamSplitsIntoRequests :
    (∀ i ∈ [Instr.ckInit, .ckStep 5#8], i.wellFormed = true ∧ i.isRequest = true) ∧
    decode [0x01#8] = .incomplete .fields ∧
    [Instr.ckInit, .ckStep 5#8].flatMap encode ++ [0x01#8] =
      [Instr.ckInit, .ckStep 5#8].flatMap encode ++ [0x01#8] ∧
    (0x10#8 : Byte).extractLsb' 4 4 ≠ 0#4 ∧ 0xA ≤ ((0x0A#8 : Byte).extractLsb' 0 4).toNat := by decide
theorem witness_IllegalOpbIsOneByteRequest :
    decode [0x0A#8] = .request (.illegalOp 0x0A#8) [] ∧
    decode [0x10#8] = .request (.illegalOp 0x10#8) [] ∧
    decode [0x09#8] ≠ .request (.illegalOp 0x09#8) [] := by decide
theorem witness_PayloadDispatchMatchesPayloadBytes :
    (Instr.payloadOther 0x7D#8 [1#8]).wellFormed = true ∧
    (Instr.payloadOther 0x7D#8 [1#8]).isRequest = false ∧
    decodePayload [0x7E#8] = some (.payload7E []) := by decide
theorem witness_PlDecodeRunsThePayloadRow :
    decodePayload [0x7E#8] = some (.payload7E []) ∧ decodePayload [0x0A#8] = some (.payload0A []) ∧
    decodePayload [0x00#8] = some (.payloadOther 0x00#8 []) := by decide
theorem witness_MultiByteFieldsAreBigEndian :
    be16 0x1234#16 = [0x12#8, 0x34#8] ∧ rd16 0x12#8 0x34#8 = 0x1234#16 ∧
    be32 0x12345678#32 = [0x12#8, 0x34#8, 0x56#8, 0x78#8] ∧
    rd32 0x12#8 0x34#8 0x56#8 0x78#8 = 0x12345678#32 := by decide

/-- No reset is next where the script is empty or begins with another act. -/
theorem noReset_of_nil {s : State} (h : s.script = []) : s.noReset := by simp [State.noReset, h]

/-- A request with no byte after it is one request. -/
theorem oneRequest_of_decode {s : State} {i : Instr} (h : decode s.rqb = .request i []) :
    s.oneRequest := fun j rest h' => by
  rw [h] at h'; simp only [Decoded.request.injEq] at h'; exact h'.2.symm

theorem witness_StepExecutesTheCompleteRequest :
    ∃ s : State, s.noReset ∧ s.rsq = [] ∧ decode s.rqb = .request .ckRead [] ∧
      decode (s.rqb ++ [0x00#8]) = .request .ckRead [0x00#8] :=
  ⟨having 7#16 [0x02#8], noReset_of_nil rfl, rfl, by decide, by decide⟩
theorem witness_IncompleteRequestExecutesNothing :
    ∃ s : State, s.noReset ∧ decode s.rqb = .incomplete .fields ∧ s.rqbLater = [] ∧
      s.script = [] := ⟨having 7#16 [0x01#8], noReset_of_nil rfl, by decide, rfl, rfl⟩
theorem witness_HostWriteReachesTheRequestBuffer :
    (∃ s t : State, s.script = [.write 5#8] ∧ step s = .next t ∧ t.script = []) ∧
    (∃ s : State, decode s.rqb = .incomplete .opb ∧ s.rqbLater = [] ∧ s.script = [.write 5#8]) ∧
    (∃ s : State, decode s.rqb = .request .ckRead [] ∧ s.rsq ≠ [] ∧ s.script = [.write 5#8]) ∧
    (∃ s : State, s.noReset ∧ decode s.rqb = .incomplete .opb ∧ s.rqbLater = [5#8]) :=
  ⟨⟨{ State.reset with script := [.write 5#8] }, _, rfl, rfl, rfl⟩,
    ⟨{ State.reset with script := [.write 5#8] }, by decide, rfl, rfl⟩,
    ⟨{ having 7#16 [0x02#8] with rsq := [0#8], script := [.write 5#8] }, by decide, by decide, rfl⟩,
    ⟨{ State.reset with rqbLater := [5#8] }, noReset_of_nil rfl, by decide, rfl⟩⟩
theorem witness_HostReadReturnsTheOldestByte :
    (∃ s : State, s.script = [.read] ∧ s.rsq = [1#8, 2#8] ∧ s.rqbLater = []) ∧
    (∃ s : State, s.script = [.read] ∧ s.rsq = [1#8] ∧ s.rqbLater = [3#8] ∧
      decode s.rqb = .request .ckRead []) ∧
    (∃ s : State, s.script = [.read] ∧ decode s.rqb = .incomplete .opb ∧ s.rqbLater = [3#8]) ∧
    (∃ s : State, s.script = [.read] ∧ s.rsq = [] ∧ decode s.rqb = .incomplete .opb ∧
      s.rqbLater = []) :=
  ⟨⟨{ State.reset with script := [.read], rsq := [1#8, 2#8] }, rfl, rfl, rfl⟩,
    ⟨{ having 7#16 [0x02#8] with script := [.read], rsq := [1#8], rqbLater := [3#8] }, rfl, rfl, rfl,
      by decide⟩,
    ⟨{ State.reset with script := [.read], rqbLater := [3#8] }, rfl, by decide, rfl⟩,
    ⟨{ State.reset with script := [.read] }, rfl, rfl, by decide, rfl⟩⟩
theorem witness_UnreadResponseHoldsTheNextRequest :
    (∃ s : State, s.noReset ∧ decode s.rqb = .request .ckRead [] ∧ s.rsq ≠ []) ∧
    (∃ s : State, decode s.rqb = .request .ckRead [0x00#8] ∧ s.rsq = [0#8] ∧ s.script = [.read] ∧
      ∀ q' : List HostAct, ([] : List HostAct) ≠ .rst :: q') ∧
    (∃ s t : State, s.oneRequest ∧ s.rqbLater = [] ∧ step s = .next t ∧ t.rqbLater ≠ []) :=
  ⟨⟨{ having 7#16 [0x02#8] with rsq := [0#8] }, noReset_of_nil rfl, by decide, by decide⟩,
    ⟨{ having 7#16 [0x02#8, 0x00#8] with rsq := [0#8], script := [.read] }, by decide, rfl, rfl,
      by simp⟩,
    ⟨{ having 7#16 [0x02#8] with rsq := [0#8], script := [.write 5#8] }, _, oneRequest_of_decode
      (i := .ckRead) (by decide), rfl, rfl, by decide⟩⟩
theorem witness_ResetDiscardsEverythingInFlight :
    ∃ s : State, s.script = [.rst, .write 5#8] ∧ s.acc ≠ 0x147A#16 ∧ s.rqb ≠ [] ∧ s.rsq ≠ [] :=
  ⟨{ having 7#16 [0x01#8] with rsq := [0#8], script := [.rst, .write 5#8] }, rfl, by decide, by decide,
    by decide⟩
theorem witness_StepKeepsOneRequestAndOneResponse :
    ∃ s t : State, step s = .next t ∧ s.Inv ∧ t.rsq ≠ [] :=
  ⟨having 7#16 [0x00#8], _, rfl, ⟨oneRequest_of_decode (i := .ckInit) (by decide), [0x00#8],
    ⟨.ckInit, 7#16, _, rfl, rfl, rfl, rfl⟩, List.nil_suffix⟩, by decide⟩
theorem witness_RqbHoldsOneRequestWithoutHeldWrites :
    (∃ s t : State, s.oneRequest ∧ s.rqbLater = [] ∧ step s = .next t ∧ s.noReset ∧ s.rsq = [] ∧
      decode s.rqb = .request .ckRead []) ∧
    (∃ s t : State, s.oneRequest ∧ s.rqbLater = [] ∧ step s = .next t ∧ s.rsq = [] ∧
      s.script = [.write 5#8] ∧ t.script = []) :=
  ⟨⟨having 7#16 [0x02#8], _, oneRequest_of_decode (i := .ckRead) (by decide), rfl, rfl,
      noReset_of_nil rfl, rfl, by decide⟩,
    ⟨{ State.reset with script := [.write 5#8] }, _, fun i rest h => by simp [State.reset, decode] at h,
      rfl, rfl, rfl, rfl, rfl⟩⟩
theorem witness_HostTransactionRunsTheRequest :
    ∃ (s t : State) (i : Instr), i.wellFormed = true ∧ i.isRequest = true ∧ s.rqb = [] ∧
      s.rqbLater = [] ∧ s.rsq = [] ∧ exec i s = .next t ∧ t.rsq.length = 3 :=
  ⟨State.reset, _, .ckRead, rfl, rfl, rfl, rfl, rfl, rfl, by decide⟩
theorem witness_BatchedRequestsAnswerInOrder :
    ∃ (s t : State) (is : List Instr), (∀ i ∈ is, i.wellFormed = true ∧ i.isRequest = true) ∧
      s.rqb = [] ∧ s.rqbLater = [] ∧ s.rsq = [] ∧ execAll is s = .next t ∧ t.rsq.length = 5 :=
  ⟨State.reset, _, [.ckInit, .ckStep 1#8, .ckRead], by decide, rfl, rfl, rfl, rfl, by decide⟩
theorem witness_StatusesOfEachOperation :
    ∃ (s t : State) (i : Instr), exec i s = .next t := ⟨State.reset, _, .ckInit, rfl⟩
theorem witness_ErrorsChangeNothingElse :
    (∃ (s t : State) (r : List Byte), exec (.illegalOp 0xFF#8) s = .next t ∧
      t.rsq = s.rsq ++ 0x81#8 :: r ∧ (0x81#8 : Byte) ≠ 0x00#8) ∧
    (∃ (s t : State) (r : List Byte), exec (.plDecode [0x00#8]) s = .next t ∧
      t.rsq = s.rsq ++ 0x11#8 :: r) ∧
    (∃ (s t : State) (r : List Byte), exec (.plDecode []) s = .next t ∧
      t.rsq = s.rsq ++ 0x12#8 :: r) :=
  ⟨⟨State.reset, _, [], rfl, rfl, by decide⟩, ⟨State.reset, _, [0#8, 1#8, 0#8], rfl, rfl⟩,
    ⟨State.reset, _, [0#8, 0#8], rfl, rfl⟩⟩
theorem witness_OnlyInitAndStepWriteAcc :
    ∃ s t : State, exec (.ckStep 1#8) s = .next t ∧ t.acc ≠ s.acc :=
  ⟨State.reset, _, rfl, by decide⟩
theorem witness_OtherOperationsIgnoreAcc :
    ∃ s t : State, writesAcc (.frExtract 1#8 []) = false ∧ Instr.frExtract 1#8 [] ≠ .ckRead ∧
      exec (.frExtract 1#8 []) s = .next t := ⟨State.reset, _, rfl, by decide, rfl⟩
theorem witness_RepeatedOperationAnswersTheSame :
    (∃ s t : State, writesAcc .ckRead = false ∧ exec .ckRead s = .next t) ∧
    (∃ s t u : State, exec .ckInit s = .next t ∧ exec .ckInit t = .next u) ∧
    (∃ s t u : State, exec (.ckStep 1#8) s = .next t ∧ exec (.ckStep 1#8) t = .next u) :=
  ⟨⟨State.reset, _, rfl, rfl⟩, ⟨State.reset, _, _, rfl, rfl⟩, ⟨State.reset, _, _, rfl, rfl⟩⟩
theorem witness_OverlengthExactlyAboveMaxLen :
    (limitedLength (.zbPack (Config.maxLen + 1) []) = some (Config.maxLen + 1) ∧
      Config.maxLen < Config.maxLen + 1) ∧
    (∃ (s t : State) (r : List Byte), exec (.zbPack (Config.maxLen + 1) []) s = .next t ∧
      t.rsq = s.rsq ++ 0x82#8 :: r) :=
  ⟨⟨rfl, by omega⟩, ⟨State.reset, _, [], limited_of_lt (by omega) _ _, rfl⟩⟩
theorem witness_CkInitStartsAnAccumulation : ∃ t, exec .ckInit State.reset = .next t := ⟨_, rfl⟩
theorem witness_CkReadReturnsAcc :
    (∃ (s : State) (h l : Byte), s.acc.toNat = h.toNat * 256 + l.toNat) ∧
    (∃ s t : State, exec .ckInit s = .next t) :=
  ⟨⟨State.reset, 0x14#8, 0x7A#8, by decide⟩, ⟨having 7#16 [], _, rfl⟩⟩
theorem witness_AccumulationEqualsCompute :
    [Instr.ckStep 1#8, .ckRead, .ckCompute [9#8], .ckStep 2#8].filter writesAcc =
      [1#8, 2#8].map .ckStep := by decide
theorem witness_ChecksumLaws : ckStep 0#16 1#8 = ckStep 0#16 1#8 ∧ (1#8 : Byte) ≠ 2#8 := by decide
theorem witness_ParseFrameChecksInOrder :
    ([] : List Byte).length < 6 ∧ [1#8, 2#8, 3#8, 4#8, 5#8].length < 6 ∧
    ([0xFE#8, 0xFF#8] : List Byte) ≠ [0xFE#8, 0xFE#8] ∧
    ([0xFE#8, 0x0C#8] : List Byte) ≠ [0xFE#8, 0x0D#8] ∧
    rd16 0x14#8 0x7B#8 ≠ compute [] ∧ rd16 0x14#8 0x7A#8 = compute [] ∧
    rd16 0xD8#8 0x60#8 = compute [0x7E#8] := by decide
theorem witness_BuildAndParseAreInverses :
    ∃ (bytes : List Byte) (f : Frame), parseFrame bytes = .ok f ∧ f.data.length + 7 ≤ Config.maxLen :=
  ⟨[0xFE#8, 0xFE#8, 0x7E#8, 0xD8#8, 0x60#8, 0xFE#8, 0x0D#8], { command := 0x7E#8, data := [] }, rfl, by
    have := maxLen_bounds; simp only [List.length_nil]; omega⟩
theorem witness_TamperedFrames :
    ([0xD8#8, 0x61#8] : List Byte) ≠ be16 (compute [0x7E#8]) ∧ (1#8 : Byte) ≠ 2#8 ∧
    ([0xFE#8, 0xFC#8] : List Byte) ≠ [0xFE#8, 0xFE#8] ∧
    ([0xFE#8, 0x0F#8] : List Byte) ≠ [0xFE#8, 0x0D#8] := by decide
theorem witness_JoinedFramesPassOnlyOnEqualChecksums :
    compute [0x0A#8] ≠ compute (0x7E#8 :: ([] ++ be16 (compute [0x7E#8]) ++
      [0xFE#8, 0x0D#8, 0xFE#8, 0xFE#8] ++ [0x0A#8])) := by decide
theorem witness_FrParseAnswersTheFrameOrItsError :
    parseFrame [0xFE#8, 0xFE#8, 0x7E#8, 0xD8#8, 0x60#8, 0xFE#8, 0x0D#8] =
      .ok { command := 0x7E#8, data := [] } ∧
    [0xFE#8, 0xFE#8, 0x7E#8, 0xD8#8, 0x60#8, 0xFE#8, 0x0D#8].length ≤ Config.maxLen :=
  ⟨rfl, by have := maxLen_bounds; simp only [List.length_cons, List.length_nil]; omega⟩
theorem witness_ShortPayloadIsMalformed : (List.replicate 12 0#8).length + 1 < 14 := by decide
theorem witness_OtherCommandIsUnsupported :
    (0x7D#8 : Byte) ≠ 0x7E#8 ∧ (0x7D#8 : Byte) ≠ 0x0A#8 ∧
    (List.replicate (Config.maxLen - 1) 0#8).length + 1 ≤ Config.maxLen :=
  ⟨by decide, by decide, witness_within_maxLen.2.2.1⟩
theorem witness_VersionStringLengths :
    (9#8 : Byte).toNat ≤ 9 ∧ 10 ≤ (10#8 : Byte).toNat ∧ (List.replicate 11 9#8).length = 11 ∧
    (∀ d ∈ List.replicate 11 (9#8 : Byte), d.toNat ≤ 9) := by
  refine ⟨by decide, by decide, List.length_replicate, fun d hd => ?_⟩
  rw [List.eq_of_mem_replicate hd]; decide
theorem witness_PackedBitmapHasTheListedBits :
    (∀ p ∈ [1#32, 16#32, 1#32], 1 ≤ p.toNat ∧ p.toNat ≤ 8 * 2) ∧ 1 < 2 ∧ 7 < 8 := by simp
theorem witness_PackAndUnpackAreInverses :
    (∀ p ∈ [1#32, 16#32, 1#32], 1 ≤ p.toNat ∧ p.toNat ≤ 8 * 2) ∧
    8 * [0x05#8, 0xA0#8].length < 2 ^ 32 := by simp
theorem witness_ZbPackAnswersTheBitmap :
    (∃ p ∈ [9#32], p.toNat = 0 ∨ 8 * 1 < p.toNat) ∧
    (∃ p ∈ [0#32], p.toNat = 0 ∨ 8 * 1 < p.toNat) ∧
    (∀ p ∈ [1#32, 8#32], 1 ≤ p.toNat ∧ p.toNat ≤ 8 * 1) ∧ Config.maxLen ≤ Config.maxLen ∧
    Config.maxLen < Config.maxLen + 1 := ⟨by simp, by simp, by simp, by omega, by omega⟩

theorem witness_CkComputeReturnsTheChecksum :
    (List.replicate Config.maxLen 0#8).length ≤ Config.maxLen ∧
    Config.maxLen < (List.replicate (Config.maxLen + 1) 0#8).length :=
  ⟨witness_within_maxLen.1, witness_above_maxLen.1⟩
theorem witness_FrBuildAnswersTheFrame :
    (List.replicate (Config.maxLen - 7) 0#8).length + 7 ≤ Config.maxLen ∧
    Config.maxLen < (List.replicate (Config.maxLen - 6) 0#8).length + 7 :=
  ⟨witness_within_maxLen.2.1, witness_above_maxLen.2.1⟩
theorem witness_FrExtractAnswersThePayload :
    (List.replicate (Config.maxLen - 1) 0#8).length + 1 ≤ Config.maxLen ∧
    Config.maxLen < (List.replicate Config.maxLen 0#8).length + 1 :=
  ⟨witness_within_maxLen.2.2.1, witness_above_maxLen.2.2⟩
theorem witness_DeviceInfoAnswer :
    14 + (List.replicate (Config.maxLen - 14) 0#8).length ≤ Config.maxLen := witness_within_maxLen.2.2.2
theorem witness_ZoneBitmapAnswer :
    (List.replicate (Config.maxLen - 1) 0#8).length + 1 ≤ Config.maxLen := witness_within_maxLen.2.2.1
theorem witness_ZbUnpackAnswersTheZones :
    (List.replicate Config.maxLen 0#8).length ≤ Config.maxLen ∧
    Config.maxLen < (List.replicate (Config.maxLen + 1) 0#8).length :=
  ⟨witness_within_maxLen.1, witness_above_maxLen.1⟩
theorem witness_ExtractedPayloadIsTheInterior :
    parseFrame [0xFE#8, 0xFE#8, 0x0A#8, 0xD7#8, 0xEC#8, 0xFE#8, 0x0D#8] =
      .ok { command := 0x0A#8, data := [] } := rfl

end Sys2Proof.Tests
end

section
/-! PROOFS. The decoder and the encoder invert each other (30_encoding.md R60 to R66, R74), so a request
that is still being written is incomplete; the byte order of fields (20_memory.md R43); and the bounds of
the two parameters (00_scope.md R7). -/

namespace Sys2Proof

/-- R60, R64, R66: the decoder reads a well-formed request back, whatever bytes follow it. -/
theorem decode_encode {i : Instr} (hw : i.wellFormed = true) (hr : i.isRequest = true)
    (rest : List Byte) : decode (encode i ++ rest) = .request i rest := by
  cases i with
  | ckInit => rfl
  | ckStep b => rfl
  | ckRead => rfl
  | ckCompute seq => exact readSeq_written .ckCompute (of_decide_eq_true hw) rest
  | frBuild cmd data => exact readSeq_written (.frBuild cmd) (of_decide_eq_true hw) rest
  | frParse bytes => exact readSeq_written .frParse (of_decide_eq_true hw) rest
  | frExtract cmd data => exact readSeq_written (.frExtract cmd) (of_decide_eq_true hw) rest
  | plDecode payload => exact readSeq_written .plDecode (of_decide_eq_true hw) rest
  | zbUnpack data => exact readSeq_written .zbUnpack (of_decide_eq_true hw) rest
  | zbPack nb ps =>
    obtain ⟨hn, hp⟩ := Bool.and_eq_true_iff.mp hw
    exact readPack_written .zbPack (of_decide_eq_true hn) (of_decide_eq_true hp) rest
  | illegalOp opb => exact decode_reserved hw rest
  | payload7E rest => contradiction
  | payload0A data => contradiction
  | payloadOther cmd rest => contradiction

/-- Where the form `B` reads a request, the bytes are the operand byte and the bytes after it. -/
theorem readByte_request {mk : Byte → Instr} {bs : List Byte} {i : Instr} {rest : List Byte}
    (h : readByte mk bs = .request i rest) : ∃ b, i = mk b ∧ bs = b :: rest := by
  cases bs with
  | nil => simp [readByte] at h
  | cons b bs =>
    cases h
    exact ⟨b, rfl, rfl⟩

/-- R74: what the decoder reads is a well-formed request, and its bytes are that request's encoding. -/
theorem decode_request {bs rest : List Byte} {i : Instr} (h : decode bs = .request i rest) :
    i.wellFormed = true ∧ i.isRequest = true ∧ bs = encode i ++ rest := by
  cases bs with
  | nil => simp [decode_nil] at h
  | cons opb bs =>
    rcases opb_cases opb with
      rfl | rfl | rfl | rfl | rfl | rfl | rfl | rfl | rfl | rfl | hres
    · cases (decode_ckInit bs).symm.trans h
      exact ⟨rfl, rfl, rfl⟩
    · obtain ⟨b, rfl, rfl⟩ := readByte_request ((decode_ckStep bs).symm.trans h)
      exact ⟨rfl, rfl, rfl⟩
    · cases (decode_ckRead bs).symm.trans h
      exact ⟨rfl, rfl, rfl⟩
    · obtain ⟨seq, rfl, hl, rfl⟩ := readSeq_request ((decode_ckCompute bs).symm.trans h)
      exact ⟨decide_eq_true hl, rfl, rfl⟩
    · obtain ⟨cmd, seq, rfl, hl, rfl⟩ := readCmdSeq_request ((decode_frBuild bs).symm.trans h)
      exact ⟨decide_eq_true hl, rfl, rfl⟩
    · obtain ⟨seq, rfl, hl, rfl⟩ := readSeq_request ((decode_frParse bs).symm.trans h)
      exact ⟨decide_eq_true hl, rfl, rfl⟩
    · obtain ⟨cmd, seq, rfl, hl, rfl⟩ := readCmdSeq_request ((decode_frExtract bs).symm.trans h)
      exact ⟨decide_eq_true hl, rfl, rfl⟩
    · obtain ⟨seq, rfl, hl, rfl⟩ := readSeq_request ((decode_plDecode bs).symm.trans h)
      exact ⟨decide_eq_true hl, rfl, rfl⟩
    · obtain ⟨seq, rfl, hl, rfl⟩ := readSeq_request ((decode_zbUnpack bs).symm.trans h)
      exact ⟨decide_eq_true hl, rfl, rfl⟩
    · obtain ⟨nb, ps, rfl, hn, hp, rfl⟩ := readPack_request ((decode_zbPack bs).symm.trans h)
      exact ⟨Bool.and_eq_true_iff.mpr ⟨decide_eq_true hn, decide_eq_true hp⟩, rfl, rfl⟩
    · cases (decode_reserved hres bs).symm.trans h
      exact ⟨hres, rfl, rfl⟩

/-- A complete request stays the request it is when more bytes follow (R74). -/
theorem decode_append {bs rest : List Byte} {i : Instr} (h : decode bs = .request i rest)
    (more : List Byte) : decode (bs ++ more) = .request i (rest ++ more) := by
  obtain ⟨hw, hr, rfl⟩ := decode_request h
  rw [List.append_assoc, decode_encode hw hr]

/-- R60: until its last byte is there, a request is incomplete. -/
theorem decode_incomplete_of_append_eq_encode {i : Instr} (hw : i.wellFormed = true)
    (hr : i.isRequest = true) {bs more : List Byte} (he : bs ++ more = encode i) (hm : more ≠ []) :
    ∃ why, decode bs = .incomplete why := by
  rcases hd : decode bs with ⟨j, rest⟩ | why
  · have h := decode_append hd more
    have hi := decode_encode hw hr []
    rw [he, ← List.append_nil (encode i), hi] at h
    exact absurd (List.append_eq_nil_iff.mp (Decoded.request.inj h).2.symm).2 hm
  · exact ⟨why, rfl⟩

/-! ### The byte order of fields and the bounds of the parameters -/

theorem be16_eq_iff (w : Word16) (h l : Byte) : be16 w = [h, l] ↔ rd16 h l = w := by
  constructor
  · intro hw
    obtain ⟨rfl, rfl⟩ : hi8 w = h ∧ lo8 w = l := by simpa [be16] using hw
    exact rd16_be16 w
  · rintro rfl
    exact be16_rd16 h l

theorem be32_eq_iff (v : Word32) (a b c d : Byte) :
    be32 v = [a, b, c, d] ↔ rd32 a b c d = v := by
  constructor
  · intro hv
    simp only [be32, List.cons.injEq, and_true] at hv
    obtain ⟨rfl, rfl, rfl, rfl⟩ := hv
    exact rd32_be32 v
  · rintro rfl
    exact be32_rd32 a b c d

/-- Settles O9: the two readings in numbers, and the two written forms, each determined by its bytes. -/
theorem multiByteFieldsAreBigEndian : Obligations.MultiByteFieldsAreBigEndian :=
  ⟨rd16_toNat, rd32_toNat, be16_eq_iff, be32_eq_iff⟩

/-- R7: a rendering has one to three characters. -/
theorem renderDigit_length (v : Byte) :
    1 ≤ (Config.renderDigit v).length ∧ (Config.renderDigit v).length ≤ 3 := by
  unfold Config.renderDigit
  rcases Config.renderChoice v with ⟨more, c0, c1, c2⟩
  have h := more.isLt
  simp only [List.length_map, List.length_take, List.length_cons, List.length_nil]
  omega

/-- R7: every character of a rendering is 7-bit ASCII. -/
theorem renderDigit_ascii {v c : Byte} (h : c ∈ Config.renderDigit v) : c.toNat < 128 := by
  obtain ⟨x, -, rfl⟩ := List.mem_map.mp h
  rw [BitVec.toNat_setWidth_of_le (by decide)]
  exact x.isLt

/-- Settles O29: the bounds of `MAX_LEN` with the length and the characters of a rendering. -/
theorem parametersStayInTheirBounds : Obligations.ParametersStayInTheirBounds :=
  ⟨⟨Machine.maxLen_bounds.1, Nat.le_of_lt_succ Machine.maxLen_bounds.2⟩, fun v =>
    ⟨(renderDigit_length v).1, (renderDigit_length v).2, fun _ => renderDigit_ascii⟩⟩

end Sys2Proof
end

section
/-! PROOFS. What an instruction answers (30_encoding.md R61; 20_memory.md R47). -/

namespace Sys2Proof.Machine

/-- From every state with accumulator `a`, `f` empties `RQB`, leaves one and the same accumulator, appends
one and the same response, and changes nothing else: a meaning depends on the state by `ACC` alone. -/
def AnswersAt (a : Word16) (f : State → Answer) : Prop :=
  ∃ (v : Word16) (st : Byte) (r : List Byte), ∀ s : State, s.acc = a →
    f s = .next ((s.setAcc v).answered st r)

/-- An answer that leaves `ACC` as it is. -/
theorem answersAt_of_answered {a : Word16} {f : State → Answer} {st : Byte} {r : List Byte}
    (h : ∀ s, s.acc = a → f s = .next (s.answered st r)) : AnswersAt a f :=
  ⟨a, st, r, fun s hs => by subst hs; exact h s rfl⟩

theorem respondOk_answersAt (a : Word16) (r : List Byte) : AnswersAt a (respondOk r) :=
  answersAt_of_answered fun s _ => respondOk_answers r s

theorem raise_answersAt (a : Word16) (st : Status) (info : List Byte) :
    AnswersAt a (raise st info) :=
  answersAt_of_answered fun s _ => raise_answers st info s

/-- The length limit answers `Overlength` or what the operation itself answers. -/
theorem limited_answersAt {a : Word16} (n : Nat) {body : State → Answer} (h : AnswersAt a body) :
    AnswersAt a (limited n body) := by
  obtain ⟨v, st, r, hb⟩ := h
  rcases Nat.lt_or_ge Config.maxLen n with hn | hn
  · exact answersAt_of_answered fun s _ => limited_of_lt hn body s
  · exact ⟨v, st, r, fun s hs => (limited_of_le hn body s).trans (hb s hs)⟩

theorem respondParsed_answersAt (a : Word16) (r : Except FrameError Frame) :
    AnswersAt a (respondParsed r) := by
  cases r with
  | error e => exact raise_answersAt a e.status []
  | ok f => exact respondOk_answersAt a _

theorem respondDecoded_answersAt (a : Word16) (r : Except DecodeError DecodedPayload) :
    AnswersAt a (respondDecoded r) := by
  rcases r with (p | p) | (⟨t, v, l⟩ | z)
  · exact raise_answersAt a .unsupportedCommand (withLength p)
  · exact raise_answersAt a .malformedPayload (withLength p)
  · exact respondOk_answersAt a _
  · exact respondOk_answersAt a _

theorem respondPacked_answersAt (a : Word16) (nb : Nat) (ps : List Word32) :
    AnswersAt a (respondPacked nb ps) := by
  unfold respondPacked
  cases ps.any (badPartition nb)
  · exact respondOk_answersAt a _
  · exact raise_answersAt a .badOperand []

/-- R61, R47, R21: every instruction answers one response, which depends on the state by `ACC` alone. -/
theorem exec_answersAt (i : Instr) (a : Word16) : AnswersAt a (exec i) := by
  cases i with
  | ckInit => exact ⟨Config.init, 0x00#8, [], fun s _ => rfl⟩
  | ckStep b => exact ⟨ckStep a b, 0x00#8, [], fun s hs => by subst hs; rfl⟩
  | ckRead => exact answersAt_of_answered (r := be16 a) fun s hs => by subst hs; rfl
  | ckCompute seq => exact limited_answersAt _ (respondOk_answersAt a _)
  | frBuild cmd data => exact limited_answersAt _ (respondOk_answersAt a _)
  | frParse bytes => exact limited_answersAt _ (respondParsed_answersAt a _)
  | frExtract cmd data => exact limited_answersAt _ (respondOk_answersAt a _)
  | plDecode payload => exact limited_answersAt _ (respondDecoded_answersAt a _)
  | zbUnpack data => exact limited_answersAt _ (respondOk_answersAt a _)
  | zbPack nb ps => exact limited_answersAt _ (respondPacked_answersAt a nb ps)
  | illegalOp opb => exact raise_answersAt a .illegalOp []
  | payload7E rest => exact limited_answersAt _ (respondDecoded_answersAt a _)
  | payload0A data => exact limited_answersAt _ (respondDecoded_answersAt a _)
  | payloadOther cmd rest => exact limited_answersAt _ (respondDecoded_answersAt a _)

/-- Settles O22: an instruction's answer at the state's own accumulator. -/
theorem everyRequestAnswersOneResponse : Obligations.EveryRequestAnswersOneResponse := by
  intro i s
  obtain ⟨v, st, r, h⟩ := exec_answersAt i s.acc
  exact ⟨v, st, r, h s rfl⟩

end Sys2Proof.Machine
end

section
/-! PROOFS. Single steps and runs of a host that writes one request and reads its response (10_state.md R22
to R24). -/

namespace Sys2Proof.Machine

/-! ### Single steps -/

theorem State.noReset_of_write {s : State} {b : Byte} {q : List HostAct}
    (h : s.script = .write b :: q) : s.noReset := by simp [State.noReset, h]

theorem State.noReset_of_read {s : State} {q : List HostAct} (h : s.script = .read :: q) :
    s.noReset := by simp [State.noReset, h]

/-- R60: while the request is incomplete and no byte comes up to it, the environment moves. -/
theorem State.nextMove_incomplete {s : State} {why : Missing} (hn : s.noReset)
    (hd : decode s.rqb = .incomplete why) (hl : s.rqbLater = []) : s.nextMove = s.hostMove := by
  simp [State.nextMove_of_noReset hn, State.blockMove_incomplete hd, hl]

/-- R24: while response bytes are unread, a complete request is held and the environment moves. -/
theorem State.nextMove_held {s : State} {i : Instr} {rest : List Byte} (hn : s.noReset)
    (hd : decode s.rqb = .request i rest) (hr : s.rsq ≠ []) : s.nextMove = s.hostMove := by
  simp [State.nextMove_of_noReset hn, State.blockMove_request hd, hr]

theorem step_of_nextMove_host {s : State} (h : s.nextMove = .host) : step s = .next s.hostAct := by
  rw [step, h]

/-- R22: a byte written while no complete request is there joins the request being received. -/
theorem step_write_incomplete {s : State} {why : Missing} {b : Byte} {q : List HostAct}
    (hd : decode s.rqb = .incomplete why) (hl : s.rqbLater = []) (hs : s.script = .write b :: q) :
    step s = .next { s with rqb := s.rqb ++ [b], script := q } := by
  have hm : s.nextMove = .host := by
    rw [State.nextMove_incomplete (State.noReset_of_write hs) hd hl, State.hostMove, hs]
  rw [step_of_nextMove_host hm, State.hostAct_write hs]
  exact congrArg _ (State.hostWrite_incomplete (s := { s with script := q }) hd hl b)

/-- R23: a read takes the oldest response byte, unless bytes are still coming up to a request. -/
theorem step_read_cons {s : State} {b : Byte} {bs : List Byte} {q : List HostAct}
    (hs : s.script = .read :: q) (hr : s.rsq = b :: bs)
    (hl : s.rqbLater = [] ∨ ∃ i rest, decode s.rqb = .request i rest) :
    step s = .next { s with rsq := bs, received := s.received ++ [b], script := q } := by
  have hn := State.noReset_of_read hs
  have hm : s.nextMove = s.hostMove := by
    rcases hd : decode s.rqb with ⟨i, rest⟩ | why
    · exact State.nextMove_held hn hd (by simp [hr])
    · exact State.nextMove_incomplete hn hd (hl.resolve_right (by simp [hd]))
  have hh : s.hostMove = .host := by simp [State.hostMove, hs, hr]
  rw [step_of_nextMove_host (hm.trans hh), State.hostAct_read_cons hs hr]

/-- R22, R24, R47: a complete request executes in one step once `RSQ` is empty. -/
theorem step_request {s : State} {i : Instr} {rest : List Byte}
    (hd : decode s.rqb = .request i rest) (hn : s.noReset) (hr : s.rsq = []) :
    step s = exec i (s.setApart rest) := by
  have hm : s.nextMove = .execute i rest := by
    simp [State.nextMove_of_noReset hn, State.blockMove_request hd, hr]
  rw [step, hm]

/-! ### Runs -/

theorem runFor_succ_of_step {s t : State} (h : step s = .next t) (k : Nat) :
    runFor (k + 1) s = runFor k t := by rw [runFor, h]

/-- A run goes on from the state its first part has reached. -/
theorem runFor_add {s t : State} {m : Nat} (h : runFor m s = .next t) (n : Nat) :
    runFor (m + n) s = runFor n t := by
  induction m generalizing s with
  | zero =>
    cases h
    rw [Nat.zero_add]
  | succ m ih =>
    rw [Nat.succ_add]
    rcases hs : step s with u | f | r
    · rw [runFor_succ_of_step hs] at h ⊢
      exact ih h
    · simp [runFor, hs] at h
    · simp [runFor, hs] at h

/-- R22: written bytes join the request being received one a step, as long as it is incomplete before
each of them. -/
theorem runFor_writes (bs : List Byte) {s : State} {q : List HostAct} (hl : s.rqbLater = [])
    (hs : s.script = bs.map .write ++ q)
    (hd : ∀ pre post, post ≠ [] → pre ++ post = bs → ∃ why, decode (s.rqb ++ pre) = .incomplete why) :
    runFor bs.length s = .next { s with rqb := s.rqb ++ bs, script := q } := by
  induction bs generalizing s with
  | nil =>
    obtain rfl : s.script = q := hs
    simp [runFor]
  | cons b bs ih =>
    rw [List.map_cons, List.cons_append] at hs
    obtain ⟨why, hwhy⟩ := hd [] (b :: bs) (by simp) rfl
    rw [List.append_nil] at hwhy
    have hrest : ∀ pre post, post ≠ [] → pre ++ post = bs →
        ∃ why, decode (s.rqb ++ [b] ++ pre) = .incomplete why := by
      intro pre post hpost heq
      rw [List.append_assoc]
      exact hd (b :: pre) post hpost (congrArg (b :: ·) heq)
    rw [List.length_cons, runFor_succ_of_step (step_write_incomplete hwhy hl hs),
      ih (s := { s with rqb := s.rqb ++ [b], script := bs.map .write ++ q }) hl rfl hrest]
    simp

/-- R22, R60: the bytes of one request, written to an empty `RQB`, are received in one step each, and
nothing executes before the last of them. -/
theorem runFor_writes_encode {i : Instr} (hw : i.wellFormed = true) (hi : i.isRequest = true)
    {s : State} {q : List HostAct} (hb : s.rqb = []) (hl : s.rqbLater = [])
    (hs : s.script = (encode i).map .write ++ q) :
    runFor (encode i).length s = .next { s with rqb := encode i, script := q } := by
  rw [runFor_writes (encode i) hl hs, hb, List.nil_append]
  intro pre post hpost heq
  rw [hb, List.nil_append]
  exact decode_incomplete_of_append_eq_encode hw hi heq hpost

/-- R23: as many host reads as there are response bytes receive them all, in order. -/
theorem runFor_reads (bs : List Byte) {s : State} {q : List HostAct} (hr : s.rsq = bs)
    (hs : s.script = List.replicate bs.length .read ++ q)
    (hl : s.rqbLater = [] ∨ ∃ i rest, decode s.rqb = .request i rest) :
    runFor bs.length s = .next { s with rsq := [], received := s.received ++ bs, script := q } := by
  induction bs generalizing s with
  | nil =>
    obtain rfl : s.script = q := hs
    rw [List.length_nil, runFor, List.append_nil, ← hr]
  | cons b bs ih =>
    rw [List.length_cons, List.replicate_succ, List.cons_append] at hs
    rw [List.length_cons, runFor_succ_of_step (step_read_cons hs hr hl),
      ih (s := { s with rsq := bs, received := s.received ++ [b],
                        script := List.replicate bs.length .read ++ q }) rfl rfl hl]
    simp

/-- Settles O20: the bytes arrive while the request is incomplete, the complete request executes in one
step, and the reads take its response. -/
theorem hostTransactionRunsTheRequest : Obligations.HostTransactionRunsTheRequest := by
  intro s t i q hw hi hrqb hlater hrsq hexec
  obtain ⟨v, st, r, hans⟩ := exec_answersAt i s.acc
  obtain rfl : (s.setAcc v).answered st r = t := by simpa [hans s rfl] using hexec
  have hresp : ((s.setAcc v).answered st r).rsq = st :: r := by simp [hrsq]
  rw [hresp, Nat.add_assoc]
  let written : State :=
    { s with rqb := encode i, script := List.replicate (st :: r).length .read ++ q }
  have hstep : step written = .next ((written.setAcc v).answered st r) := by
    have hd : decode written.rqb = .request i [] := by simpa using decode_encode hw hi []
    rw [step_request hd (State.noReset_of_read rfl) hrsq, State.setApart_nil, hans written rfl]
  calc
    _ = runFor (1 + (st :: r).length) written :=
      runFor_add (runFor_writes_encode
        (s := { s with script := (encode i).map .write ++ written.script }) hw hi hrqb hlater rfl) _
    _ = runFor (st :: r).length ((written.setAcc v).answered st r) := by
      rw [Nat.add_comm, runFor_succ_of_step hstep]
    _ = _ := runFor_reads (st :: r) (by simp [written, hrsq]) rfl (.inl hlater)

end Sys2Proof.Machine
end

section
/-! PROOFS. Which instructions read or write `ACC` (10_state.md R21; 41_checksum.md R107). -/

namespace Sys2Proof.Machine

/-- `f` ends a request with one response, the same from every state: it neither reads nor writes `ACC`. -/
def FixedAnswer (f : State → Answer) : Prop := ∃ st r, f = finish st r

theorem respondOk_fixedAnswer (r : List Byte) : FixedAnswer (respondOk r) := ⟨.ok, r, rfl⟩

theorem limited_fixedAnswer (n : Nat) {body : State → Answer} (h : FixedAnswer body) :
    FixedAnswer (limited n body) := by
  rcases Nat.lt_or_ge Config.maxLen n with hn | hn
  · exact ⟨.overlength, [], funext (limited_of_lt hn body)⟩
  · rwa [funext (limited_of_le hn body)]

theorem respondParsed_fixedAnswer (p : Except FrameError Frame) : FixedAnswer (respondParsed p) := by
  cases p with
  | error e => exact ⟨e.status, [], rfl⟩
  | ok f => exact respondOk_fixedAnswer _

theorem respondDecoded_fixedAnswer (p : Except DecodeError DecodedPayload) :
    FixedAnswer (respondDecoded p) := by
  rcases p with (p | p) | (⟨t, v, l⟩ | z)
  · exact ⟨.unsupportedCommand, withLength p, rfl⟩
  · exact ⟨.malformedPayload, withLength p, rfl⟩
  · exact respondOk_fixedAnswer _
  · exact respondOk_fixedAnswer _

theorem respondPacked_fixedAnswer (nb : Nat) (ps : List Word32) :
    FixedAnswer (respondPacked nb ps) := by
  unfold respondPacked
  cases ps.any (badPartition nb)
  · exact respondOk_fixedAnswer _
  · exact ⟨.badOperand, [], rfl⟩

/-- R21, R107: apart from the three operations on `ACC`, every instruction has one answer for all
states. -/
theorem exec_fixedAnswer {i : Instr} (hw : writesAcc i = false) (hr : i ≠ .ckRead) :
    FixedAnswer (exec i) := by
  cases i with
  | ckInit => contradiction
  | ckStep b => contradiction
  | ckRead => contradiction
  | ckCompute seq => exact limited_fixedAnswer _ (respondOk_fixedAnswer _)
  | frBuild cmd data => exact limited_fixedAnswer _ (respondOk_fixedAnswer _)
  | frParse bytes => exact limited_fixedAnswer _ (respondParsed_fixedAnswer _)
  | frExtract cmd data => exact limited_fixedAnswer _ (respondOk_fixedAnswer _)
  | plDecode payload => exact limited_fixedAnswer _ (respondDecoded_fixedAnswer _)
  | zbUnpack data => exact limited_fixedAnswer _ (respondOk_fixedAnswer _)
  | zbPack nb ps => exact limited_fixedAnswer _ (respondPacked_fixedAnswer nb ps)
  | illegalOp opb => exact ⟨.illegalOp, [], rfl⟩
  | payload7E rest => exact limited_fixedAnswer _ (respondDecoded_fixedAnswer _)
  | payload0A data => exact limited_fixedAnswer _ (respondDecoded_fixedAnswer _)
  | payloadOther cmd rest => exact limited_fixedAnswer _ (respondDecoded_fixedAnswer _)

theorem writesAcc_iff {i : Instr} : writesAcc i = true ↔ i = .ckInit ∨ ∃ b, i = .ckStep b := by
  cases i <;> simp [writesAcc]

/-- R21: an operation that is not CK.INIT or CK.STEP leaves `ACC` as it was. -/
theorem exec_acc_of_not_writesAcc {i : Instr} {s t : State} (hw : writesAcc i = false)
    (hx : exec i s = .next t) : t.acc = s.acc := by
  by_cases hr : i = .ckRead
  · subst hr
    cases hx
    rfl
  · obtain ⟨st, r, hf⟩ := exec_fixedAnswer hw hr
    rw [hf] at hx
    cases hx
    rfl

/-- Settles O25: an instruction that changes `ACC` is among those that write it. -/
theorem onlyInitAndStepWriteAcc : Obligations.OnlyInitAndStepWriteAcc := by
  intro i s t hx hacc
  by_contra hi
  rw [← writesAcc_iff, Bool.not_eq_true] at hi
  exact hacc (exec_acc_of_not_writesAcc hi hx)

/-- Settles O26: the one answer of such an instruction carries any accumulator along. -/
theorem otherOperationsIgnoreAcc : Obligations.OtherOperationsIgnoreAcc := by
  intro i s t a hw hr hx
  obtain ⟨st, r, hf⟩ := exec_fixedAnswer hw hr
  rw [hf] at hx ⊢
  cases hx
  rfl

end Sys2Proof.Machine
end

section
/-! PROOFS. Everything a step does, and what every step keeps (10_state.md R22 to R24, R32;
70_reset_and_hazards.md R239, R242). -/

namespace Sys2Proof.Machine

/-! ### What an execution leaves -/

/-- R47: an executed request leaves `RQB`, queues its response and may write `ACC`. -/
theorem exec_next {i : Instr} {s t : State} (hx : exec i s = .next t) :
    ∃ v st r, t = (s.setAcc v).answered st r := by
  obtain ⟨v, st, r, h⟩ := exec_answersAt i s.acc
  rw [h s rfl] at hx
  cases hx
  exact ⟨v, st, r, rfl⟩

theorem exec_rqb {i : Instr} {s t : State} (hx : exec i s = .next t) : t.rqb = [] := by
  obtain ⟨v, st, r, rfl⟩ := exec_next hx
  rfl

theorem exec_rqbLater {i : Instr} {s t : State} (hx : exec i s = .next t) :
    t.rqbLater = s.rqbLater := by
  obtain ⟨v, st, r, rfl⟩ := exec_next hx
  rfl

theorem exec_answers (i : Instr) (s : State) : ∃ t, exec i s = .next t := by
  obtain ⟨v, st, r, h⟩ := exec_answersAt i s.acc
  exact ⟨_, h s rfl⟩

/-- R61: what a well-formed request puts into an empty `RSQ` is a response. -/
theorem exec_isResponse {i : Instr} {s t : State} (hw : i.wellFormed = true)
    (hi : i.isRequest = true) (hr : s.rsq = []) (hx : exec i s = .next t) : IsResponse t.rsq := by
  obtain ⟨v, st, r, h⟩ := exec_answersAt i s.acc
  rw [h s rfl] at hx
  cases hx
  exact ⟨i, s.acc, _, hw, hi, h _ rfl, by simp [hr, State.reset]⟩

/-! ### The transitions of the block and its host -/

/-- When the environment acts without asserting reset: its next act can be done, and the block holds a
request (R24) or waits for bytes (R60). -/
theorem State.nextMove_host {s : State} (hn : s.noReset) (h : s.nextMove = .host) :
    s.hostMove = .host ∧
      ((∃ i rest, decode s.rqb = .request i rest) ∧ s.rsq ≠ [] ∨
        (∃ why, decode s.rqb = .incomplete why) ∧ s.rqbLater = []) := by
  rw [State.nextMove_of_noReset hn] at h
  rcases hd : decode s.rqb with ⟨i, rest⟩ | why
  · rw [State.blockMove_request hd] at h
    split at h
    · cases h
    · exact ⟨h, .inl ⟨⟨i, rest, rfl⟩, by simpa using ‹¬s.rsq.isEmpty = true›⟩⟩
  · rw [State.blockMove_incomplete hd] at h
    split at h
    · exact ⟨h, .inr ⟨⟨why, rfl⟩, by simpa using ‹s.rqbLater.isEmpty = true›⟩⟩
    · cases h

/-- The ways the block and its host go on from `s`. -/
inductive Transition (s : State) : State → Prop where
  /-- Nothing can move. -/
  | wait (hm : s.nextMove = .wait) : Transition s s
  | idle {q : List HostAct} (hs : s.script = .idle :: q) : Transition s { s with script := q }
  | reset {q : List HostAct} (hs : s.script = .rst :: q) :
      Transition s { s with acc := 0x147A#16, rqb := [], rqbLater := [], rsq := [], script := q }
  | read {b : Byte} {bs : List Byte} {q : List HostAct} (hs : s.script = .read :: q)
      (hr : s.rsq = b :: bs) :
      Transition s { s with rsq := bs, received := s.received ++ [b], script := q }
  /-- A written byte joins the request being received (R22). -/
  | writeJoins {why : Missing} {b : Byte} {q : List HostAct} (hs : s.script = .write b :: q)
      (hd : decode s.rqb = .incomplete why) (hl : s.rqbLater = []) :
      Transition s { s with rqb := s.rqb ++ [b], script := q }
  /-- A written byte waits behind a held request (R239). -/
  | writeWaits {i : Instr} {rest : List Byte} {b : Byte} {q : List HostAct}
      (hs : s.script = .write b :: q) (hd : decode s.rqb = .request i rest) (hr : s.rsq ≠ []) :
      Transition s { s with rqbLater := s.rqbLater ++ [b], script := q }
  /-- A waiting byte comes up. -/
  | advance {why : Missing} {b : Byte} {later : List Byte} (hn : s.noReset)
      (hd : decode s.rqb = .incomplete why) (hl : s.rqbLater = b :: later) :
      Transition s { s with rqb := s.rqb ++ [b], rqbLater := later }
  /-- The complete request executes (R47). -/
  | execute {i : Instr} {rest : List Byte} {t : State} (hn : s.noReset)
      (hd : decode s.rqb = .request i rest) (hr : s.rsq = [])
      (hx : exec i (s.setApart rest) = .next t) : Transition s t

/-- An act of the environment is one of the transitions. -/
theorem hostAct_transition {s : State} (h : s.nextMove = .host) : Transition s s.hostAct := by
  cases hs : s.script with
  | nil =>
    have hm := (State.nextMove_host (by simp [State.noReset, hs]) h).1
    simp [State.hostMove, hs] at hm
  | cons act q =>
    cases act with
    | write b =>
      rw [State.hostAct_write hs]
      obtain ⟨-, ⟨⟨i, rest, hd⟩, hr⟩ | ⟨⟨why, hd⟩, hl⟩⟩ :=
        State.nextMove_host (State.noReset_of_write hs) h
      · rw [State.hostWrite_complete (s := { s with script := q }) hd]
        exact .writeWaits hs hd hr
      · rw [State.hostWrite_incomplete (s := { s with script := q }) hd hl]
        exact .writeJoins hs hd hl
    | read =>
      cases hr : s.rsq with
      | nil =>
        have hm := (State.nextMove_host (State.noReset_of_read hs) h).1
        simp [State.hostMove, hs, hr] at hm
      | cons b bs =>
        rw [State.hostAct_read_cons hs hr]
        exact .read hs hr
    | rst =>
      rw [State.hostAct_rst hs]
      exact .reset hs
    | idle =>
      rw [State.hostAct_idle hs]
      exact .idle hs

/-- Every step is one of the transitions. -/
theorem exists_step_transition (s : State) : ∃ t, step s = .next t ∧ Transition s t := by
  rcases step_cases s with ⟨hm, h⟩ | ⟨hm, h⟩ | ⟨i, rest, hm, h⟩ | ⟨hm, h⟩
  · exact ⟨_, h, hostAct_transition hm⟩
  · obtain ⟨hn, ⟨why, hd⟩, hl⟩ := State.nextMove_advance hm
    obtain ⟨b, later, hl⟩ := List.exists_cons_of_ne_nil hl
    exact ⟨_, h, State.advance_cons hl ▸ .advance hn hd hl⟩
  · obtain ⟨hn, hd, hr⟩ := State.nextMove_execute hm
    obtain ⟨t, hx⟩ := exec_answers i (s.setApart rest)
    exact ⟨t, h.trans hx, .execute hn hd hr hx⟩
  · exact ⟨s, h, .wait hm⟩

theorem step_transition {s t : State} (h : step s = .next t) : Transition s t := by
  obtain ⟨u, hu, htr⟩ := exists_step_transition s
  rw [hu] at h
  cases h
  exact htr

/-- Settles O17: one of the transitions is always there. -/
theorem stepAlwaysAnswers : Obligations.StepAlwaysAnswers := by
  intro s
  obtain ⟨t, h, -⟩ := exists_step_transition s
  exact ⟨t, h⟩

/-! ### The step from a given situation -/

/-- R23, R60: where nothing can move, the state stays. -/
theorem step_of_nextMove_wait {s : State} (h : s.nextMove = .wait) : step s = .next s := by
  rw [step, h]

/-- R239: a waiting byte comes up to an incomplete request. -/
theorem step_advance {s : State} {why : Missing} {b : Byte} {later : List Byte} (hn : s.noReset)
    (hd : decode s.rqb = .incomplete why) (hl : s.rqbLater = b :: later) :
    step s = .next { s with rqb := s.rqb ++ [b], rqbLater := later } := by
  have hm : s.nextMove = .advance := by
    simp [State.nextMove_of_noReset hn, State.blockMove_incomplete hd, hl]
  rw [step, hm]
  exact congrArg _ (State.advance_cons hl)

/-- R239: a byte written while a request is held waits behind it. -/
theorem step_write_held {s : State} {i : Instr} {rest : List Byte} {b : Byte} {q : List HostAct}
    (hd : decode s.rqb = .request i rest) (hr : s.rsq ≠ []) (hs : s.script = .write b :: q) :
    step s = .next { s with rqbLater := s.rqbLater ++ [b], script := q } := by
  have hm : s.nextMove = .host := by
    rw [State.nextMove_held (State.noReset_of_write hs) hd hr, State.hostMove, hs]
  rw [step_of_nextMove_host hm, State.hostAct_write hs]
  exact congrArg _ (State.hostWrite_complete (s := { s with script := q }) hd b)

/-- R23: a read of an empty `RSQ` waits while the block can do nothing. -/
theorem step_read_nil {s : State} {why : Missing} {q : List HostAct} (hs : s.script = .read :: q)
    (hr : s.rsq = []) (hd : decode s.rqb = .incomplete why) (hl : s.rqbLater = []) :
    step s = .next s := by
  apply step_of_nextMove_wait
  rw [State.nextMove_incomplete (State.noReset_of_read hs) hd hl]
  simp [State.hostMove, hs, hr]

/-- R60: without bytes and without acts of the environment the block waits. -/
theorem step_script_nil {s : State} {why : Missing} (hs : s.script = [])
    (hd : decode s.rqb = .incomplete why) (hl : s.rqbLater = []) : step s = .next s := by
  apply step_of_nextMove_wait
  rw [State.nextMove_incomplete (by simp [State.noReset, hs]) hd hl]
  simp [State.hostMove, hs]

/-- Settles O10: the executed request's bytes leave `rqb`, and what followed them stays. -/
theorem stepExecutesTheCompleteRequest : Obligations.StepExecutesTheCompleteRequest := by
  intro s i rest hn hr hd
  have hstep := step_request hd hn hr
  obtain ⟨t, hx⟩ := exec_answers i (s.setApart rest)
  refine ⟨?_, hstep, t, hstep.trans hx, exec_rqb hx, exec_rqbLater hx⟩
  rintro rfl
  exact hstep

/-- Settles O13: the read, the byte that comes up before it, and the wait. -/
theorem hostReadReturnsTheOldestByte : Obligations.HostReadReturnsTheOldestByte :=
  ⟨fun _ _ _ _ hs hr hl => step_read_cons hs hr hl,
    fun _ _ _ _ _ hs hd hl => step_advance (State.noReset_of_read hs) hd hl,
    fun _ _ _ hs hr hd hl => step_read_nil hs hr hd hl⟩

/-! ### What a step that executes nothing leaves unchanged -/

/-- R24, R60: a step that is no reset and finds no request to execute leaves `ACC` and adds nothing to
`RSQ`. -/
theorem Transition.acc_rsq_of_not_execute {s t : State} (h : Transition s t) (hn : s.noReset)
    (hno : ∀ i rest, decode s.rqb = .request i rest → s.rsq ≠ []) :
    t.acc = s.acc ∧ (t.rsq = s.rsq ∨ ∃ b, s.rsq = b :: t.rsq) := by
  cases h with
  | reset hs => exact absurd hs (hn _)
  | read hs hr => exact ⟨rfl, .inr ⟨_, hr⟩⟩
  | execute _ hd hr => exact absurd hr (hno _ _ hd)
  | wait | idle | writeJoins | writeWaits | advance => exact ⟨rfl, .inl rfl⟩

/-- R24, R239: while a request is held, `RQB` changes only by a byte the host writes, which waits. -/
theorem Transition.rqb_of_held {s t : State} {i : Instr} {rest : List Byte} (h : Transition s t)
    (hn : s.noReset) (hd : decode s.rqb = .request i rest) (hr : s.rsq ≠ []) :
    ∃ more, t.rqb = s.rqb ∧ t.rqbLater = s.rqbLater ++ more ∧
      (more = [] ∨ ∃ b q, more = [b] ∧ s.script = .write b :: q) := by
  cases h with
  | reset hs => exact absurd hs (hn _)
  | writeJoins _ hd' => simp [hd] at hd'
  | advance _ hd' => simp [hd] at hd'
  | execute _ _ hr' => exact absurd hr' hr
  | writeWaits hs => exact ⟨_, rfl, rfl, .inr ⟨_, _, rfl, hs⟩⟩
  | wait | idle | read => exact ⟨[], rfl, (List.append_nil _).symm, .inl rfl⟩

/-- R239: only a write during a hold puts a byte behind the one request `RQB` holds. -/
theorem Transition.held_write_of_rqbLater_ne_nil {s t : State} (h : Transition s t)
    (hone : s.oneRequest) (hl : s.rqbLater = []) (ht : t.rqbLater ≠ []) :
    s.rsq ≠ [] ∧ (∃ i, decode s.rqb = .request i []) ∧ ∃ b q, s.script = .write b :: q := by
  cases h with
  | writeWaits hs hd hr =>
    obtain rfl := hone _ _ hd
    exact ⟨hr, ⟨_, hd⟩, _, _, hs⟩
  | execute _ hd _ hx =>
    obtain rfl := hone _ _ hd
    exact absurd ((exec_rqbLater hx).trans hl) ht
  | reset => exact absurd rfl ht
  | advance _ _ hl' => simp [hl] at hl'
  | wait | idle | read | writeJoins => exact absurd hl ht

/-- Settles O11: no request is there to execute, and without bytes and acts nothing moves. -/
theorem incompleteRequestExecutesNothing : Obligations.IncompleteRequestExecutesNothing := by
  intro s why hn hd
  obtain ⟨t, hstep, htr⟩ := exists_step_transition s
  refine ⟨⟨t, hstep, htr.acc_rsq_of_not_execute hn (by simp [hd])⟩, fun hl hs => ?_⟩
  exact step_script_nil hs hd hl

/-- R24: the read of the last response byte lifts the hold, and the request executes next. -/
theorem step_read_last_then_execute {s : State} {i : Instr} {rest : List Byte} {b : Byte}
    {q : List HostAct} (hd : decode s.rqb = .request i rest) (hr : s.rsq = [b])
    (hs : s.script = .read :: q) (hq : ∀ q', q ≠ .rst :: q') :
    ∃ t u, step s = .next t ∧ t.rsq = [] ∧ t.rqb = s.rqb ∧ t.rqbLater = s.rqbLater ∧
      step t = exec i { t with rqbLater := rest ++ t.rqbLater } ∧
      step t = .next u ∧ u.rqb = [] ∧ u.rqbLater = rest ++ s.rqbLater := by
  let t : State := { s with rsq := [], received := s.received ++ [b], script := q }
  have hstep : step t = exec i (t.setApart rest) := step_request hd hq rfl
  obtain ⟨u, hx⟩ := exec_answers i (t.setApart rest)
  exact ⟨t, u, step_read_cons hs hr (.inr ⟨i, rest, hd⟩), rfl, rfl, rfl, hstep, hstep.trans hx,
    exec_rqb hx, exec_rqbLater hx⟩

/-- Settles O14: the hold, its end, and the one way a byte comes to wait. -/
theorem unreadResponseHoldsTheNextRequest : Obligations.UnreadResponseHoldsTheNextRequest := by
  refine ⟨fun s i rest hn hd hr => ?_, fun s i rest b q hd hr hs hq => ?_, fun s t hone hl h ht => ?_⟩
  · obtain ⟨t, hstep, htr⟩ := exists_step_transition s
    obtain ⟨hacc, hrsq⟩ := htr.acc_rsq_of_not_execute hn fun _ _ _ => hr
    obtain ⟨more, hrqb, hlater, hmore⟩ := htr.rqb_of_held hn hd hr
    exact ⟨t, more, hstep, hacc, hrqb, hlater, hmore, hrsq⟩
  · exact step_read_last_then_execute hd hr hs hq
  · exact (step_transition h).held_write_of_rqbLater_ne_nil hone hl ht

/-- R22: the step that takes a written byte from the script appends it to `RQB`. -/
theorem Transition.wholeRqb_of_write {s t : State} {b : Byte} {q : List HostAct}
    (h : Transition s t) (hs : s.script = .write b :: q) (ht : t.script = q) :
    t.wholeRqb = s.wholeRqb ++ [b] := by
  have hne : s.script ≠ q := by simp [hs]
  cases h with
  | writeJoins hs' _ hl =>
    obtain ⟨rfl, -⟩ : _ = b ∧ _ := by simpa [hs'] using hs
    simp [State.wholeRqb, hl]
  | writeWaits hs' =>
    obtain ⟨rfl, -⟩ : _ = b ∧ _ := by simpa [hs'] using hs
    simp [State.wholeRqb]
  | wait | advance => exact absurd ht hne
  | idle hs' | reset hs' | read hs' => simp [hs'] at hs
  | execute _ _ _ hx =>
    obtain ⟨v, st, r, rfl⟩ := exec_next hx
    exact absurd ht hne

/-- Settles O12: the write to all of `RQB`, its two places, and the bytes that come up. -/
theorem hostWriteReachesTheRequestBuffer : Obligations.HostWriteReachesTheRequestBuffer :=
  ⟨fun _ _ _ _ hs h ht => (step_transition h).wholeRqb_of_write hs ht,
    fun _ _ _ _ hd hl hs => step_write_incomplete hd hl hs,
    fun _ _ _ _ _ hd hr hs => step_write_held hd hr hs,
    fun _ _ _ _ hn hd hl => step_advance hn hd hl⟩

/-! ### The invariant -/

/-- R74: the byte that completes a request is its last. -/
theorem rest_eq_nil_of_decode_concat {bs rest : List Byte} {why : Missing} {i : Instr} {b : Byte}
    (hd : decode bs = .incomplete why) (h : decode (bs ++ [b]) = .request i rest) : rest = [] := by
  obtain ⟨hw, hi, he⟩ := decode_request h
  rcases List.eq_nil_or_concat rest with hrest | ⟨front, c, rfl⟩
  · exact hrest
  · rw [List.concat_eq_append, ← List.append_assoc] at he
    obtain ⟨rfl, -⟩ := List.append_inj' he rfl
    simp [decode_encode hw hi] at hd

theorem State.oneRequest_of_rqb_nil {s : State} (h : s.rqb = []) : s.oneRequest := by
  simp [State.oneRequest, h, decode_nil]

/-- R22: no step lets a byte follow a complete request in `rqb`. -/
theorem Transition.oneRequest {s t : State} (h : Transition s t) (hone : s.oneRequest) :
    t.oneRequest := by
  cases h with
  | writeJoins _ hd => exact fun _ _ => rest_eq_nil_of_decode_concat hd
  | advance _ hd => exact fun _ _ => rest_eq_nil_of_decode_concat hd
  | reset => exact State.oneRequest_of_rqb_nil rfl
  | execute _ _ _ hx => exact State.oneRequest_of_rqb_nil (exec_rqb hx)
  | wait | idle | read | writeWaits => exact hone

/-- With nothing unread, what is unread is the end of any response, such as that of CK.INIT. -/
theorem State.oneResponse_of_rsq_nil {s : State} (h : s.rsq = []) : s.oneResponse :=
  ⟨[0x00#8], ⟨.ckInit, 0#16, _, rfl, rfl, rfl, rfl⟩, by simp [h]⟩

/-- R24: a response is queued into an empty `RSQ` only, and reads shorten it from the front. -/
theorem Transition.oneResponse {s t : State} (h : Transition s t) (hone : s.oneResponse) :
    t.oneResponse := by
  cases h with
  | read _ hr =>
    obtain ⟨resp, hresp, hsuf⟩ := hone
    exact ⟨resp, hresp, (List.suffix_cons _ _).trans (hr ▸ hsuf)⟩
  | reset => exact State.oneResponse_of_rsq_nil rfl
  | execute _ hd hr hx =>
    obtain ⟨hw, hi, -⟩ := decode_request hd
    exact ⟨_, exec_isResponse (s := s.setApart _) hw hi hr hx, List.suffix_rfl⟩
  | wait | idle | writeJoins | writeWaits | advance => exact hone

/-- Settles O18: each part of the invariant along each transition. -/
theorem stepKeepsOneRequestAndOneResponse : Obligations.StepKeepsOneRequestAndOneResponse := by
  intro s t h
  have htr := step_transition h
  exact ⟨fun ⟨hreq, hresp⟩ => ⟨htr.oneRequest hreq, htr.oneResponse hresp⟩, htr.oneRequest,
    htr.oneResponse⟩

/-- Settles O58: nothing comes to wait without a held write, so all of `RQB` is the part of which the
invariant speaks. -/
theorem rqbHoldsOneRequestWithoutHeldWrites : Obligations.RqbHoldsOneRequestWithoutHeldWrites := by
  intro s t hone hl h hfree
  have htr := step_transition h
  have htl : t.rqbLater = [] := by
    by_contra hne
    obtain ⟨hr, ⟨i, hd⟩, b, q, hs⟩ := htr.held_write_of_rqbLater_ne_nil hone hl hne
    rcases hfree with hr' | ⟨why, hd'⟩ | hno
    · exact hr hr'
    · simp [hd] at hd'
    · exact hno b q hs
  have hwhole : t.wholeRqb = t.rqb := by rw [State.wholeRqb, htl, List.append_nil]
  refine ⟨⟨htr.oneRequest hone, htl, hwhole⟩, fun i hn hr hd => ?_,
    fun b q hs ht => htr.wholeRqb_of_write hs ht⟩
  rw [hwhole, exec_rqb ((step_request hd hn hr).symm.trans h)]

/-- Settles O15: the fields of the state after reset. -/
theorem resetValues : Obligations.ResetValues := ⟨rfl, rfl, rfl, rfl⟩

/-- Settles O19: empty buffers meet the invariant and are at rest. -/
theorem resetHasTheInvariant : Obligations.ResetHasTheInvariant :=
  ⟨⟨State.oneRequest_of_rqb_nil rfl, State.oneResponse_of_rsq_nil rfl⟩,
    ⟨.opb, decode_nil⟩, rfl, rfl⟩

end Sys2Proof.Machine
end

section
/-! PROOFS. A host that writes several requests at once and then reads (10_state.md R24; 20_memory.md R49;
70_reset_and_hazards.md R239): the first request executes at once, the second is held, and the later ones
wait behind it until reads lift one hold after another. -/

namespace Sys2Proof.Machine

/-! ### The responses of a list of requests -/

/-- Executed one after another from accumulator `a`, the instructions answer the concatenated responses
and leave the accumulator so given: `Responses a is w resp`. -/
inductive Responses : Word16 → List Instr → Word16 → List Byte → Prop where
  | nil (a : Word16) : Responses a [] a []
  | cons {a v w : Word16} {i : Instr} {is : List Instr} {st : Byte} {r resp : List Byte}
      (hx : ∀ s : State, s.acc = a → exec i s = .next ((s.setAcc v).answered st r))
      (h : Responses v is w resp) : Responses a (i :: is) w (st :: r ++ resp)

theorem exists_responses (is : List Instr) (a : Word16) : ∃ w resp, Responses a is w resp := by
  induction is generalizing a with
  | nil => exact ⟨a, [], .nil a⟩
  | cons i is ih =>
    obtain ⟨v, st, r, hx⟩ := exec_answersAt i a
    obtain ⟨w, resp, h⟩ := ih v
    exact ⟨w, _, .cons hx h⟩

/-- R49: what `execAll` leaves. -/
theorem Responses.execAll_eq {a w : Word16} {is : List Instr} {resp : List Byte}
    (h : Responses a is w resp) {s : State} (ha : s.acc = a) (hb : s.rqb = []) :
    execAll is s = .next { s with acc := w, rsq := s.rsq ++ resp } := by
  induction h generalizing s with
  | nil a => simp [execAll, ← ha]
  | cons hx h ih =>
    rw [execAll, hx s ha]
    exact (ih rfl rfl).trans (by simp [State.answered, State.setAcc, hb])

/-! ### Runs -/

/-- Some number of steps leads from `s` to `t`. -/
def Reaches (s t : State) : Prop := ∃ n, runFor n s = .next t

theorem Reaches.trans {s t u : State} (h : Reaches s t) (h' : Reaches t u) : Reaches s u := by
  obtain ⟨m, hm⟩ := h
  obtain ⟨n, hn⟩ := h'
  exact ⟨m + n, (runFor_add hm n).trans hn⟩

theorem Reaches.of_step {s t : State} (h : step s = .next t) : Reaches s t :=
  ⟨1, runFor_succ_of_step h 0⟩

/-- R239: the bytes of a request that waits come up until it is complete. -/
theorem reaches_advances {i : Instr} (hw : i.wellFormed = true) (hi : i.isRequest = true)
    (bs : List Byte) {later : List Byte} {s : State} (hn : s.noReset) (he : s.rqb ++ bs = encode i)
    (hl : s.rqbLater = bs ++ later) :
    Reaches s { s with rqb := encode i, rqbLater := later } := by
  induction bs generalizing s with
  | nil =>
    obtain rfl : s.rqbLater = later := hl
    rw [← he, List.append_nil]
    exact ⟨0, rfl⟩
  | cons b bs ih =>
    obtain ⟨why, hd⟩ := decode_incomplete_of_append_eq_encode hw hi he (List.cons_ne_nil b bs)
    refine (Reaches.of_step (step_advance hn hd hl)).trans ?_
    exact ih (s := { s with rqb := s.rqb ++ [b], rqbLater := bs ++ later }) hn
      (by rw [← he, List.append_assoc, List.singleton_append]) rfl

/-- R22, R239: a byte written while response bytes are unread comes to all of `RQB`, and nothing else
changes. -/
theorem step_write_unread {s : State} {b : Byte} {q : List HostAct} (hr : s.rsq ≠ [])
    (hl : s.rqbLater = [] ∨ ∃ i rest, decode s.rqb = .request i rest)
    (hs : s.script = .write b :: q) :
    ∃ t, step s = .next t ∧ (t.rqbLater = [] ∨ ∃ i rest, decode t.rqb = .request i rest) ∧
      t = { s with rqb := t.rqb, rqbLater := t.rqbLater, script := q } := by
  rcases hd : decode s.rqb with ⟨i, rest⟩ | why
  · exact ⟨_, step_write_held hd hr hs, .inr ⟨i, rest, hd⟩, rfl⟩
  · have hl := hl.resolve_right (by simp [hd])
    exact ⟨_, step_write_incomplete hd hl hs, .inl hl, rfl⟩

/-- R22, R239: so it is with several bytes, and `rqb` still holds one request at most. -/
theorem reaches_unreadWrites (bs : List Byte) {s : State} {q : List HostAct} (hr : s.rsq ≠ [])
    (hone : s.oneRequest) (hl : s.rqbLater = [] ∨ ∃ i rest, decode s.rqb = .request i rest)
    (hs : s.script = bs.map .write ++ q) :
    ∃ t, Reaches s t ∧ t.oneRequest ∧ t.wholeRqb = s.wholeRqb ++ bs ∧
      t = { s with rqb := t.rqb, rqbLater := t.rqbLater, script := q } := by
  induction bs generalizing s with
  | nil =>
    obtain rfl : s.script = q := hs
    exact ⟨s, ⟨0, rfl⟩, hone, (List.append_nil _).symm, rfl⟩
  | cons b bs ih =>
    obtain ⟨t, hstep, hlt, ht⟩ := step_write_unread hr hl hs
    have hst : t.script = bs.map .write ++ q := congrArg State.script ht
    have hrt : t.rsq = s.rsq := by rw [ht]
    have htr := step_transition hstep
    obtain ⟨u, hu, hone', hwhole, heq⟩ := ih (hrt ▸ hr) (htr.oneRequest hone) hlt hst
    refine ⟨u, (Reaches.of_step hstep).trans hu, hone', ?_, heq.trans (by rw [ht])⟩
    rw [hwhole, htr.wholeRqb_of_write hs hst, List.append_assoc, List.singleton_append]

/-- R22, R47: the one complete request executes in one step. -/
theorem step_executed {i : Instr} {v : Word16} {st : Byte} {r : List Byte} {s : State}
    (hd : decode s.rqb = .request i []) (hn : s.noReset) (hr : s.rsq = [])
    (hx : ∀ u : State, u.acc = s.acc → exec i u = .next ((u.setAcc v).answered st r)) :
    step s = .next ((s.setAcc v).answered st r) := by
  rw [step_request hd hn hr, State.setApart_nil, hx s rfl]

/-- R24: after the reads that empty `RSQ` the complete request executes. -/
theorem reaches_executed {i : Instr} {v : Word16} {st : Byte} {r : List Byte} {s : State}
    {q : List HostAct} (hd : decode s.rqb = .request i [])
    (hs : s.script = List.replicate s.rsq.length .read ++ q) (hq : ∀ q', q ≠ .rst :: q')
    (hx : ∀ u : State, u.acc = s.acc → exec i u = .next ((u.setAcc v).answered st r)) :
    Reaches s { s with acc := v, rqb := [], rsq := st :: r, received := s.received ++ s.rsq,
                       script := q } := by
  have hreads := runFor_reads s.rsq rfl hs (.inr ⟨i, [], hd⟩)
  exact Reaches.trans ⟨_, hreads⟩ (.of_step (step_executed hd hq rfl hx))

/-- Where `RQB` begins with a request, `rqb` holds its first bytes and the others wait. -/
theorem State.exists_missing_bytes {s : State} {i : Instr} {later : List Byte} (hone : s.oneRequest)
    (hw : i.wellFormed = true) (hi : i.isRequest = true) (h : s.wholeRqb = encode i ++ later) :
    ∃ bs, s.rqb ++ bs = encode i ∧ s.rqbLater = bs ++ later := by
  rcases List.append_eq_append_iff.mp h with ⟨bs, he, hl⟩ | ⟨bs, hb, hl⟩
  · exact ⟨bs, he.symm, hl⟩
  · obtain rfl := hone i bs (hb ▸ decode_encode hw hi bs)
    exact ⟨[], by simpa using hb, hl.symm⟩

/-- `s` when its requests have executed, with accumulator `w` and the responses `resp`, and the host has
read these after what was unread. -/
def State.readOut (s : State) (w : Word16) (resp : List Byte) (q : List HostAct) : State :=
  { s with acc := w, rqb := [], rqbLater := [], rsq := [], received := s.received ++ s.rsq ++ resp,
           script := q }

/-- R24, R239: the reads of all responses make the requests in `RQB` execute one after another. -/
theorem reaches_readOut {w : Word16} {is : List Instr} {resp : List Byte} {s : State}
    {q : List HostAct} (h : Responses s.acc is w resp)
    (hwf : ∀ i ∈ is, i.wellFormed = true ∧ i.isRequest = true) (hone : s.oneRequest)
    (hb : s.wholeRqb = is.flatMap encode)
    (hs : s.script = List.replicate (s.rsq.length + resp.length) .read ++ q) :
    Reaches s (s.readOut w resp q) := by
  generalize ha : s.acc = a at h
  induction h generalizing s with
  | nil a =>
    obtain ⟨hrqb, hlater⟩ := List.append_eq_nil_iff.mp hb
    have hreads := runFor_reads s.rsq rfl hs (.inl hlater)
    exact ⟨_, hreads.trans (by simp [State.readOut, ← ha, hrqb, hlater])⟩
  | @cons a v w i is st r resp hx h ih =>
    obtain ⟨⟨hw, hi⟩, hwf⟩ := List.forall_mem_cons.mp hwf
    obtain ⟨bs, he, hlater⟩ := State.exists_missing_bytes hone hw hi hb
    let received : State := { s with rqb := encode i, rqbLater := is.flatMap encode }
    let executed : State :=
      { received with
        acc := v, rqb := [], rsq := st :: r, received := s.received ++ s.rsq
        script := List.replicate (st :: r ++ resp).length .read ++ q }
    have hreceived : Reaches s received :=
      reaches_advances hw hi bs (State.noReset_of_read hs) he hlater
    have hexecuted : Reaches received executed :=
      reaches_executed (s := received) (by simpa using decode_encode hw hi [])
        (by simp only [received, hs, List.replicate_add, List.append_assoc]) nofun
        (fun u hu => hx u (hu.trans ha))
    have hrest : Reaches executed (executed.readOut w resp q) :=
      ih hwf (State.oneRequest_of_rqb_nil rfl) rfl (by simp only [executed, List.length_append]) rfl
    have heq : executed.readOut w resp q = s.readOut w (st :: r ++ resp) q := by
      simp [executed, State.readOut]
    exact heq ▸ hreceived.trans (hexecuted.trans hrest)

/-- R24, R239: written while a response is unread, requests execute one after another with the reads. -/
theorem reaches_readOut_of_writes {w : Word16} {is : List Instr} {resp : List Byte} {s : State}
    {q : List HostAct} (h : Responses s.acc is w resp)
    (hwf : ∀ i ∈ is, i.wellFormed = true ∧ i.isRequest = true) (hr : s.rsq ≠ []) (hb : s.rqb = [])
    (hl : s.rqbLater = [])
    (hs : s.script = (is.flatMap encode).map .write ++
      (List.replicate (s.rsq.length + resp.length) .read ++ q)) :
    Reaches s (s.readOut w resp q) := by
  obtain ⟨t, ht, hone, hwhole, heq⟩ :=
    reaches_unreadWrites _ hr (State.oneRequest_of_rqb_nil hb) (.inl hl) hs
  have hacc : t.acc = s.acc := by rw [heq]
  have hread : Reaches t (t.readOut w resp q) :=
    reaches_readOut (hacc ▸ h) hwf hone (by simpa [State.wholeRqb, hb, hl] using hwhole) (by rw [heq])
  have hfinal : t.readOut w resp q = s.readOut w resp q := by rw [heq, State.readOut, State.readOut]
  exact ht.trans (hfinal ▸ hread)

/-- R22: a request written to empty buffers executes before anything else happens but a reset. -/
theorem reaches_answered_of_writes {i : Instr} {v : Word16} {st : Byte} {r : List Byte} {s : State}
    {q : List HostAct} (hw : i.wellFormed = true) (hi : i.isRequest = true) (hb : s.rqb = [])
    (hl : s.rqbLater = []) (hr : s.rsq = []) (hs : s.script = (encode i).map .write ++ q)
    (hq : ∀ q', q ≠ .rst :: q')
    (hx : ∀ u : State, u.acc = s.acc → exec i u = .next ((u.setAcc v).answered st r)) :
    Reaches s { s with acc := v, rsq := st :: r, script := q } := by
  have hwritten := runFor_writes_encode hw hi hb hl hs
  have hstep := step_executed (s := { s with rqb := encode i, script := q })
    (by simpa using decode_encode hw hi []) hq hr hx
  exact Reaches.trans ⟨_, hwritten⟩
    (.of_step (hstep.trans (by simp [State.answered, State.setAcc, hb, hr])))

/-- No reset is next where the next acts are writes and at least one read. -/
theorem writes_reads_ne_rst (bs : List Byte) (n : Nat) (q q' : List HostAct) :
    bs.map .write ++ (List.replicate (n + 1) .read ++ q) ≠ .rst :: q' := by
  cases bs <;> nofun

/-- Settles O21: the first request executes as soon as it is written, the bytes of the others come to `RQB`
while its response is unread, and the reads make them execute in order. -/
theorem batchedRequestsAnswerInOrder : Obligations.BatchedRequestsAnswerInOrder := by
  intro is s t q hwf hrqb hlater hrsq hexec
  obtain ⟨w, resp, h⟩ := exists_responses is s.acc
  rw [h.execAll_eq rfl hrqb, hrsq, List.nil_append] at hexec
  cases hexec
  cases h with
  | nil => exact ⟨0, by simp [runFor, hrsq]⟩
  | @cons _ v _ i is st r resp hx h =>
    obtain ⟨⟨hw, hi⟩, hwf⟩ := List.forall_mem_cons.mp hwf
    let later := (is.flatMap encode).map .write ++ (List.replicate (st :: r ++ resp).length .read ++ q)
    let start : State := { s with script := (encode i).map .write ++ later }
    let afterFirst : State := { s with acc := v, rsq := st :: r, script := later }
    have hfirst : Reaches start afterFirst :=
      reaches_answered_of_writes (s := start) hw hi hrqb hlater hrsq rfl
        (writes_reads_ne_rst _ _ _) hx
    have hrest : Reaches afterFirst (afterFirst.readOut w resp q) :=
      reaches_readOut_of_writes h hwf (List.cons_ne_nil st r) hrqb hlater
        (by simp only [afterFirst, later, List.length_append])
    have hreached := hfirst.trans hrest
    simpa [Reaches, start, afterFirst, later, State.readOut, hrqb, hlater] using hreached

end Sys2Proof.Machine
end

section
/-! PROOFS. An operation executed again (20_memory.md R48). -/

namespace Sys2Proof.Machine

/-- R48: an operation that does not write `ACC` appends one and the same response each time. -/
theorem exec_again_of_not_writesAcc {i : Instr} {s t : State} (hw : writesAcc i = false)
    (hx : exec i s = .next t) :
    ∃ st r, t = s.answered st r ∧ exec i t = .next (t.answered st r) := by
  obtain ⟨v, st, r, h⟩ := exec_answersAt i s.acc
  obtain rfl : (s.setAcc v).answered st r = t := by simpa [h s rfl] using hx
  obtain rfl : v = s.acc := exec_acc_of_not_writesAcc hw hx
  exact ⟨st, r, rfl, h _ rfl⟩

/-- Settles O27: the second execution starts from the same `ACC`, or overwrites it, or steps it again. -/
theorem repeatedOperationAnswersTheSame : Obligations.RepeatedOperationAnswersTheSame := by
  refine ⟨fun i s t hw hx => ?_, fun s t u ht hu => ?_, fun b s t u ht hu => ?_⟩
  · obtain ⟨st, r, rfl, hagain⟩ := exec_again_of_not_writesAcc hw hx
    exact ⟨st :: r, rfl, hagain⟩
  · cases ht
    cases hu
    rfl
  · cases ht
    cases hu
    rfl

end Sys2Proof.Machine
end

section
/-! PROOFS. The bits of a packed bitmap (20_memory.md R44; 43_payload_decoder.md R177). -/

namespace Sys2Proof.Machine

@[simp] theorem setZone_length (m : List Byte) (p : Word32) : (setZone m p).length = m.length :=
  List.length_modify _ _ _

/-- A byte with one bit set has that bit beside its own. -/
theorem getLsbD_or_one_shiftLeft (x : Byte) {n k : Nat} (hk : k < 8) :
    (x ||| (1#8 <<< n)).getLsbD k = true ↔ x.getLsbD k = true ∨ n = k := by
  rw [BitVec.getLsbD_or, ← BitVec.twoPow_eq, BitVec.getLsbD_twoPow]
  simp only [Bool.or_eq_true, Bool.and_eq_true, decide_eq_true_eq]
  rw [and_iff_right_of_imp (fun h => h ▸ hk)]

/-- R177: one round of the loop sets the bit of its partition and no other. -/
theorem setZone_bit {m : List Byte} {p : Word32} {j k : Nat} (hp : 1 ≤ p.toNat) (hj : j < m.length)
    (hk : k < 8) :
    ((setZone m p).getD j 0#8).getLsbD k = true ↔
      (m.getD j 0#8).getLsbD k = true ∨ p.toNat = 8 * j + k + 1 := by
  have hj' : j < (setZone m p).length := by rwa [setZone_length]
  rw [List.getD_eq_getElem _ _ hj', List.getD_eq_getElem _ _ hj]
  simp only [setZone, List.getElem_modify]
  split
  · rw [getLsbD_or_one_shiftLeft _ hk]
    have hbit : (p.toNat - 1) % 8 = k ↔ p.toNat = 8 * j + k + 1 := by omega
    rw [hbit]
  · have hother : p.toNat ≠ 8 * j + k + 1 := by omega
    rw [or_iff_left hother]

theorem foldl_setZone_length (ps : List Word32) (m : List Byte) :
    (ps.foldl setZone m).length = m.length := by
  induction ps generalizing m with
  | nil => rfl
  | cons p ps ih => rw [List.foldl_cons, ih, setZone_length]

/-- R177: the loop adds the bits of the listed partitions to those of the bitmap it starts from. -/
theorem foldl_setZone_bit {ps : List Word32} {m : List Byte} {j k : Nat}
    (hps : ∀ p ∈ ps, 1 ≤ p.toNat) (hj : j < m.length) (hk : k < 8) :
    ((ps.foldl setZone m).getD j 0#8).getLsbD k = true ↔
      (m.getD j 0#8).getLsbD k = true ∨ ∃ p ∈ ps, p.toNat = 8 * j + k + 1 := by
  induction ps generalizing m with
  | nil => simp
  | cons p ps ih =>
    obtain ⟨hp, hps⟩ := List.forall_mem_cons.mp hps
    rw [List.foldl_cons, ih hps (by rwa [setZone_length]), setZone_bit hp hj hk]
    simp only [List.mem_cons, exists_eq_or_imp, or_assoc]

@[simp] theorem zonePack_length (nb : Nat) (ps : List Word32) : (zonePack nb ps).length = nb :=
  (foldl_setZone_length ps _).trans List.length_replicate

/-- R177: packing starts from a bitmap of zeros, so its bits are those of the listed partitions. -/
theorem zonePack_bit {nb : Nat} {ps : List Word32} {j k : Nat} (hps : ∀ p ∈ ps, 1 ≤ p.toNat)
    (hj : j < nb) (hk : k < 8) :
    ((zonePack nb ps).getD j 0#8).getLsbD k = true ↔ ∃ p ∈ ps, p.toNat = 8 * j + k + 1 := by
  have hzero : (List.replicate nb 0x00#8).getD j 0#8 = 0#8 := by simp [hj]
  rw [zonePack, foldl_setZone_bit hps (by rwa [List.length_replicate]) hk, hzero]
  simp

/-- Settles O54: the bitmap keeps its `NB` bytes, and its bits are those the rounds set. -/
theorem packedBitmapHasTheListedBits : Obligations.PackedBitmapHasTheListedBits :=
  fun nb ps hps => ⟨zonePack_length nb ps,
    fun _ _ hj hk => zonePack_bit (fun p hp => (hps p hp).1) hj hk⟩

end Sys2Proof.Machine
end

section
/-! PROOFS. The request encoding (30_encoding.md R60 to R66, R74): what is read, how a byte stream splits into
requests, the reserved `OPB`s and the request lengths; and the payload dispatch (R72;
43_payload_decoder.md R160). -/

namespace Sys2Proof

open Machine

/-- Settles O1: the decoder inverts the encoder. -/
theorem decodeReadsEncodedRequest : Obligations.DecodeReadsEncodedRequest :=
  fun _ hw hr rest => decode_encode hw hr rest

/-- Settles O2: the encoder inverts the decoder. -/
theorem decodedBytesAreTheEncoding : Obligations.DecodedBytesAreTheEncoding :=
  fun _ _ _ h => decode_request h

/-! ### Complete and incomplete requests -/

theorem encode_ne_nil (i : Instr) : encode i ≠ [] := by
  cases i <;> simp [encode]

theorem readSeq_of_long (mk : List Byte → Instr) {bs : List Byte} (h : 65537 ≤ bs.length) :
    ∃ i rest, readSeq mk bs = .request i rest := by
  match bs with
  | [] | [_] => simp at h
  | a :: b :: bs =>
    have hlen : (rd16 a b).toNat ≤ bs.length := by
      have := (rd16 a b).isLt
      simp only [List.length_cons] at h
      omega
    exact ⟨_, _, if_pos hlen⟩

theorem readCmdSeq_of_long (mk : Byte → List Byte → Instr) {bs : List Byte}
    (h : 65538 ≤ bs.length) : ∃ i rest, readCmdSeq mk bs = .request i rest := by
  cases bs with
  | nil => simp at h
  | cons cmd bs => exact readSeq_of_long (mk cmd) (Nat.le_of_succ_le_succ h)

theorem readPack_of_long (mk : Nat → List Word32 → Instr) {bs : List Byte}
    (h : 262144 ≤ bs.length) : ∃ i rest, readPack mk bs = .request i rest := by
  match bs with
  | [] | [_] | [_, _] | [_, _, _] => simp at h
  | a :: b :: c :: d :: bs =>
    have hlen : 4 * (rd16 c d).toNat ≤ bs.length := by
      have := (rd16 c d).isLt
      simp only [List.length_cons] at h
      omega
    exact ⟨_, _, if_pos hlen⟩

/-- R64: no request is longer than 262145 bytes (`ZB.PACK` with the largest `CNT`), so as many bytes begin
with a complete one. -/
theorem decode_of_long {bs : List Byte} (h : 262145 ≤ bs.length) :
    ∃ i rest, decode bs = .request i rest := by
  cases bs with
  | nil => simp at h
  | cons opb bs =>
    have hlen : 262144 ≤ bs.length := Nat.le_of_succ_le_succ h
    rcases opb_cases opb with
      rfl | rfl | rfl | rfl | rfl | rfl | rfl | rfl | rfl | rfl | hres
    · exact ⟨_, _, decode_ckInit bs⟩
    · obtain ⟨b, bs, rfl⟩ := List.exists_cons_of_length_pos (by omega : 0 < bs.length)
      exact ⟨_, _, decode_ckStep (b :: bs)⟩
    · exact ⟨_, _, decode_ckRead bs⟩
    · exact readSeq_of_long _ (by omega)
    · exact readCmdSeq_of_long _ (by omega)
    · exact readSeq_of_long _ (by omega)
    · exact readCmdSeq_of_long _ (by omega)
    · exact readSeq_of_long _ (by omega)
    · exact readSeq_of_long _ (by omega)
    · exact readPack_of_long _ hlen
    · exact ⟨_, _, decode_reserved hres bs⟩

/-- R60, R74: incomplete bytes are a proper beginning of a request. -/
theorem exists_request_of_incomplete {bs : List Byte} {why : Missing}
    (h : decode bs = .incomplete why) :
    ∃ j more, j.wellFormed = true ∧ j.isRequest = true ∧ more ≠ [] ∧ bs ++ more = encode j := by
  obtain ⟨j, rest, hj⟩ : ∃ j rest, decode (bs ++ List.replicate 262145 0#8) = .request j rest :=
    decode_of_long (by rw [List.length_append, List.length_replicate]; exact Nat.le_add_left _ _)
  obtain ⟨hw, hr, heq⟩ := decode_request hj
  have hbs : ∀ c, bs ≠ encode j ++ c := by
    rintro c rfl
    simp [decode_encode hw hr] at h
  rcases List.append_eq_append_iff.mp heq with ⟨more, hmore, -⟩ | ⟨c, hc, -⟩
  · refine ⟨j, more, hw, hr, ?_, hmore.symm⟩
    rintro rfl
    exact hbs [] (by simpa using hmore.symm)
  · exact absurd hc (hbs c)

/-! ### Byte streams -/

/-- R74: a byte stream is requests and then an incomplete rest. -/
theorem exists_requests (bs : List Byte) : ∃ (is : List Instr) (tail : List Byte),
    (∀ i ∈ is, i.wellFormed = true ∧ i.isRequest = true) ∧ bs = is.flatMap encode ++ tail ∧
    ∃ why, decode tail = .incomplete why := by
  rcases hd : decode bs with ⟨i, rest⟩ | why
  · obtain ⟨hw, hr, heq⟩ := decode_request hd
    have hshorter : rest.length < bs.length := by
      have := List.length_pos_of_ne_nil (encode_ne_nil i)
      rw [heq, List.length_append]
      omega
    obtain ⟨is, tail, his, hrest, hinc⟩ := exists_requests rest
    exact ⟨i :: is, tail, List.forall_mem_cons.mpr ⟨⟨hw, hr⟩, his⟩, by simp [heq, hrest], hinc⟩
  · exact ⟨[], bs, by simp, rfl, why, hd⟩
termination_by bs.length

/-- What is read from a stream that begins with a request. -/
theorem decode_flatMap_encode_cons {i : Instr} {is : List Instr}
    (h : ∀ j ∈ i :: is, j.wellFormed = true ∧ j.isRequest = true) (t : List Byte) :
    decode ((i :: is).flatMap encode ++ t) = .request i (is.flatMap encode ++ t) := by
  obtain ⟨⟨hw, hr⟩, -⟩ := List.forall_mem_cons.mp h
  rw [List.flatMap_cons, List.append_assoc, decode_encode hw hr]

/-- R74: the bytes of a stream determine its requests and its incomplete rest. -/
theorem requests_unique {is js : List Instr} {t u : List Byte} {v w : Missing}
    (his : ∀ i ∈ is, i.wellFormed = true ∧ i.isRequest = true)
    (hjs : ∀ j ∈ js, j.wellFormed = true ∧ j.isRequest = true)
    (ht : decode t = .incomplete v) (hu : decode u = .incomplete w)
    (heq : is.flatMap encode ++ t = js.flatMap encode ++ u) : is = js ∧ t = u := by
  have hdec := congrArg decode heq
  induction is generalizing js with
  | nil =>
    cases js with
    | nil => exact ⟨rfl, heq⟩
    | cons j js =>
      rw [decode_flatMap_encode_cons hjs] at hdec
      cases ht.symm.trans hdec
  | cons i is ih =>
    cases js with
    | nil =>
      rw [decode_flatMap_encode_cons his] at hdec
      cases hdec.trans hu
    | cons j js =>
      rw [decode_flatMap_encode_cons his, decode_flatMap_encode_cons hjs] at hdec
      obtain ⟨rfl, hrest⟩ := Decoded.request.inj hdec
      obtain ⟨rfl, htail⟩ := ih (List.forall_mem_cons.mp his).2 (List.forall_mem_cons.mp hjs).2
        hrest (congrArg decode hrest)
      exact ⟨rfl, htail⟩

/-! ### Reserved `OPB`s -/

theorem reservedOpb_iff {opb : Byte} : reservedOpb opb = true ↔
    opb.extractLsb' 4 4 ≠ 0#4 ∨ 0xA ≤ (opb.extractLsb' 0 4).toNat := by
  simp [reservedOpb]

/-- R66: an `OPB` is read as `IllegalOp` exactly where it is reserved. -/
theorem decode_illegalOp_iff {opb : Byte} (rest : List Byte) :
    decode (opb :: rest) = .request (.illegalOp opb) rest ↔ reservedOpb opb = true :=
  ⟨fun h => (decode_request h).1, fun h => decode_reserved h rest⟩

theorem exec_illegalOp (opb : Byte) (s : State) :
    exec (.illegalOp opb) s = .next (s.answered 0x81#8 []) := raise_answers .illegalOp [] s

/-- Settles O3: the split exists, its rest begins a request, it is the only one, and a reserved `OPB` is
`IllegalOp`. -/
theorem requestStreamSplitsIntoRequests : Obligations.RequestStreamSplitsIntoRequests := by
  refine ⟨fun bs => ?_, fun is js t u v w his hjs ht hu => requests_unique his hjs ht hu,
    fun opb rest s h => ⟨decode_reserved (reservedOpb_iff.mpr h) rest, exec_illegalOp opb s⟩⟩
  obtain ⟨is, tail, his, heq, why, hinc⟩ := exists_requests bs
  exact ⟨is, tail, his, heq, ⟨why, hinc⟩, exists_request_of_incomplete hinc⟩

/-- Settles O4: the reserved `OPB`s are those read as `IllegalOp`, and `IllegalOp` answers `0x81`. -/
theorem illegalOpbIsOneByteRequest : Obligations.IllegalOpbIsOneByteRequest :=
  fun opb rest s =>
    ⟨reservedOpb_iff.symm.trans (decode_illegalOp_iff rest).symm, exec_illegalOp opb s⟩

/-! ### The payload dispatch -/

theorem decodePayload_other {cmd : Byte} (h7 : cmd ≠ Config.cmdDevInfo) (h0 : cmd ≠ Config.cmdZones)
    (rest : List Byte) : decodePayload (cmd :: rest) = some (.payloadOther cmd rest) := by
  rw [decodePayload, if_neg h7, if_neg h0]

/-- R160, R163: the dispatch reads a payload row back from its payload. -/
theorem decodePayload_encode {i : Instr} (hw : i.wellFormed = true) (hr : i.isRequest = false) :
    decodePayload (encode i) = some i := by
  cases i with
  | payload7E rest => rfl
  | payload0A data => rfl
  | payloadOther cmd rest =>
    simp only [Instr.wellFormed, Bool.and_eq_true, bne_iff_ne] at hw
    obtain ⟨⟨h7, h0⟩, -⟩ := hw
    exact decodePayload_other h7 h0 rest
  | _ => contradiction

/-- R72, R160: what the dispatch reads is a payload row, and its bytes are the payload. -/
theorem decodePayload_some {payload : List Byte} {i : Instr} (h : decodePayload payload = some i) :
    i.isRequest = false ∧ encode i = payload := by
  cases payload with
  | nil => simp [decodePayload] at h
  | cons cmd rest =>
    by_cases h7 : cmd = Config.cmdDevInfo
    · subst h7
      cases h
      exact ⟨rfl, rfl⟩
    · by_cases h0 : cmd = Config.cmdZones
      · subst h0
        cases h
        exact ⟨rfl, rfl⟩
      · cases (decodePayload_other h7 h0 rest).symm.trans h
        exact ⟨rfl, rfl⟩

/-- Settles O5: the dispatch and the payload bytes of the rows invert each other. -/
theorem payloadDispatchMatchesPayloadBytes : Obligations.PayloadDispatchMatchesPayloadBytes :=
  ⟨fun _ hw hr => decodePayload_encode hw hr, fun _ _ h => decodePayload_some h⟩

/-! ### Written-out requests and their lengths -/

/-- Settles O7: each word is the encoding of the request it is read as. -/
theorem sampleRequestWordsDecode : Obligations.SampleRequestWordsDecode :=
  ⟨decode_encode (i := .ckInit) rfl rfl [],
    decode_encode (i := .ckStep 0x7E#8) rfl rfl [],
    decode_encode (i := .ckRead) rfl rfl [],
    decode_encode (i := .ckCompute [0x7E#8]) rfl rfl [],
    decode_encode (i := .frBuild 0x0A#8 [0x05#8]) rfl rfl [],
    decode_encode (i := .zbPack 2 [0x109#32]) rfl rfl [],
    decode_encode (i := .illegalOp 0x10#8) rfl rfl []⟩

/-- The form `LEN`, `SEQ[LEN]` takes two bytes beside the sequence. -/
theorem length_be16n_append (n : Nat) (seq : List Byte) :
    (be16n n ++ seq).length = 2 + seq.length := by
  rw [List.length_append, be16n_length]

/-- Settles O8: the bytes before the sequence or the list, and four for each number of a list. -/
theorem requestLengthsOfTheOperandTable : Obligations.RequestLengthsOfTheOperandTable := by
  intro b cmd opb seq nb ps
  have hseq : ∀ o : Byte, (o :: (be16n seq.length ++ seq)).length = 3 + seq.length := by
    intro o
    rw [List.length_cons, length_be16n_append]
    omega
  have hcmd : ∀ o : Byte, (o :: cmd :: (be16n seq.length ++ seq)).length = 4 + seq.length := by
    intro o
    rw [List.length_cons, hseq]
    omega
  have hpack : (encode (.zbPack nb ps)).length = 5 + 4 * ps.length := by
    rw [encode, List.append_assoc, List.length_cons, length_be16n_append, length_be16n_append,
      flatMap_be32_length]
    omega
  exact ⟨rfl, rfl, rfl, hseq _, hcmd _, hseq _, hcmd _, hseq _, hseq _, hpack, rfl⟩

end Sys2Proof
end

section
/-! PROOFS. Everything an instruction can answer (30_encoding.md R65, R67, R68, R71; 60_exceptions.md R200
to R203), and the statuses, errors and lengths that follow from it. -/

namespace Sys2Proof.Machine

/-- The answers open to an instruction `i` in a state `s`, by their status. -/
inductive CanAnswer (i : Instr) (s : State) : Answer → Prop where
  /-- Success; only here may `ACC` change. -/
  | success (v : Word16) (r : List Byte) (hst : 0x00#8 ∈ allowedStatus i) :
      CanAnswer i s (.next ((s.setAcc v).answered 0x00#8 r))
  /-- R65: the compared length is above `MAX_LEN`. -/
  | overlength (n : Nat) (hn : limitedLength i = some n) (hlt : Config.maxLen < n) :
      CanAnswer i s (.next (s.answered 0x82#8 []))
  /-- R71: a decode error carries the whole payload. -/
  | decodeError (st : Byte) (payload : List Byte) (hst : st ∈ allowedStatus i)
      (hcode : st = 0x11#8 ∨ st = 0x12#8) (hp : i.asRequest = .plDecode payload) :
      CanAnswer i s (.next (s.answered st (withLength payload)))
  /-- R201: every other error is its status alone. -/
  | bareError (st : Byte) (hst : st ∈ allowedStatus i)
      (hcode : st ∉ [0x00#8, 0x11#8, 0x12#8, 0x82#8]) :
      CanAnswer i s (.next (s.answered st []))

theorem CanAnswer.respondOk {i : Instr} {s : State} (hst : 0x00#8 ∈ allowedStatus i)
    (r : List Byte) : CanAnswer i s (respondOk r s) :=
  .success s.acc r hst

/-- R65: the length limit adds `Overlength` to what the operation itself can answer. -/
theorem CanAnswer.limited {i : Instr} {s : State} {n : Nat} {body : State → Answer}
    (hn : limitedLength i = some n) (h : CanAnswer i s (body s)) :
    CanAnswer i s (limited n body s) := by
  rcases limited_cases n body s with ⟨-, heq⟩ | ⟨hlt, heq⟩
  · rwa [heq]
  · rw [heq]
    exact .overlength n hn hlt

/-- R142: a frame error answers one of the codes 1 to 4. -/
theorem respondParsed_canAnswer (bytes : List Byte) (p : Except FrameError Frame) (s : State) :
    CanAnswer (.frParse bytes) s (respondParsed p s) := by
  cases p with
  | ok f => exact .respondOk (.head _) _
  | error e =>
    have hst : e.status.code ∈ allowedStatus (.frParse bytes) := by
      cases e <;> simp [allowedStatus, FrameError.status, Status.code]
    exact .bareError _ hst (by cases e <;> decide)

theorem respondDecoded_ok_canAnswer {i : Instr} (hst : 0x00#8 ∈ allowedStatus i) (d : DecodedPayload)
    (s : State) : CanAnswer i s (respondDecoded (.ok d) s) := by
  cases d with
  | deviceInfo t v l => exact .respondOk hst _
  | zoneBitmap z => exact .respondOk hst _

theorem respondDecoded_malformed_canAnswer {i : Instr} {payload : List Byte}
    (hst : 0x12#8 ∈ allowedStatus i) (hp : i.asRequest = .plDecode payload) (s : State) :
    CanAnswer i s (respondDecoded (.error (.malformedPayload payload)) s) :=
  .decodeError 0x12#8 payload hst (.inr rfl) hp

theorem respondDecoded_unsupported_canAnswer {i : Instr} {payload : List Byte}
    (hst : 0x11#8 ∈ allowedStatus i) (hp : i.asRequest = .plDecode payload) (s : State) :
    CanAnswer i s (respondDecoded (.error (.unsupportedCommand payload)) s) :=
  .decodeError 0x11#8 payload hst (.inl rfl) hp

/-- R165: `decode7E` fails only by `MalformedPayload` with its payload. -/
theorem decode7E_cases (payload : List Byte) :
    decode7E payload = .error (.malformedPayload payload) ∨ ∃ d, decode7E payload = .ok d := by
  unfold decode7E
  split
  · exact .inl rfl
  · exact .inr ⟨_, rfl⟩

/-- R160, R161: `decode` answers a decoded payload or an error with its payload. -/
theorem decodeAny_cases (payload : List Byte) :
    decodeAny payload = .error (.malformedPayload payload) ∨
    decodeAny payload = .error (.unsupportedCommand payload) ∨
    ∃ d, decodeAny payload = .ok d := by
  unfold decodeAny
  split
  · exact .inl rfl
  · split
    · exact (decode7E_cases _).imp_right .inr
    · split
      · exact .inr (.inr ⟨_, rfl⟩)
      · exact .inr (.inl rfl)

theorem respondPacked_canAnswer (nb : Nat) (ps : List Word32) (s : State) :
    CanAnswer (.zbPack nb ps) s (respondPacked nb ps s) := by
  rcases respondPacked_cases nb ps s with ⟨-, heq⟩ | ⟨-, heq⟩
  · rw [heq]
    exact .bareError _ (by simp [allowedStatus]) (by decide)
  · rw [heq]
    exact .respondOk (.head _) _

/-- R68, R200: what each instruction answers is open to it. -/
theorem exec_canAnswer (i : Instr) (s : State) : CanAnswer i s (exec i s) := by
  cases i with
  | ckInit => exact .success Config.init [] (.head _)
  | ckStep b => exact .success (ckStep s.acc b) [] (.head _)
  | ckRead => exact .respondOk (.head _) _
  | ckCompute seq => exact .limited rfl (.respondOk (.head _) _)
  | frBuild cmd data => exact .limited rfl (.respondOk (.head _) _)
  | frParse bytes => exact .limited rfl (respondParsed_canAnswer bytes _ s)
  | frExtract cmd data => exact .limited rfl (.respondOk (.head _) _)
  | plDecode payload =>
    refine .limited rfl ?_
    rcases decodeAny_cases payload with h | h | ⟨d, h⟩ <;> rw [h]
    · exact respondDecoded_malformed_canAnswer (by simp [allowedStatus]) rfl s
    · exact respondDecoded_unsupported_canAnswer (by simp [allowedStatus]) rfl s
    · exact respondDecoded_ok_canAnswer (.head _) d s
  | zbUnpack data => exact .limited rfl (.respondOk (.head _) _)
  | zbPack nb ps => exact .limited rfl (respondPacked_canAnswer nb ps s)
  | illegalOp opb => exact .bareError 0x81#8 (.head _) (by decide)
  | payload7E rest =>
    refine .limited rfl ?_
    rcases decode7E_cases (Config.cmdDevInfo :: rest) with h | ⟨d, h⟩ <;> rw [h]
    · exact respondDecoded_malformed_canAnswer (by simp [allowedStatus]) rfl s
    · exact respondDecoded_ok_canAnswer (.head _) d s
  | payload0A data => exact .limited rfl (respondDecoded_ok_canAnswer (.head _) _ s)
  | payloadOther cmd rest =>
    exact .limited rfl (respondDecoded_unsupported_canAnswer (.head _) rfl s)

theorem canAnswer_of_exec {i : Instr} {s t : State} (hx : exec i s = .next t) :
    CanAnswer i s (.next t) := hx ▸ exec_canAnswer i s

/-! ### Statuses, errors and lengths -/

theorem overlength_mem_allowedStatus {i : Instr} {n : Nat} (h : limitedLength i = some n) :
    0x82#8 ∈ allowedStatus i := by
  revert h
  cases i <;> simp [limitedLength, allowedStatus]

/-- Settles O23: the status of every answer open to an operation is listed for it. -/
theorem statusesOfEachOperation : Obligations.StatusesOfEachOperation := by
  intro i s t hx
  cases canAnswer_of_exec hx with
  | success v r hst => exact ⟨_, r, rfl, hst⟩
  | overlength n hn hlt => exact ⟨_, [], rfl, overlength_mem_allowedStatus hn⟩
  | decodeError st payload hst hcode hp => exact ⟨st, _, rfl, hst⟩
  | bareError st hst hcode => exact ⟨st, [], rfl, hst⟩

/-- Settles O24: of the answers open to an operation, all but success are errors of this form. -/
theorem errorsChangeNothingElse : Obligations.ErrorsChangeNothingElse := by
  intro i s t st r hx hrsq hne
  cases canAnswer_of_exec hx with
  | success v r' hst =>
    cases List.append_cancel_left hrsq
    exact absurd rfl hne
  | overlength n hn hlt =>
    cases List.append_cancel_left hrsq
    exact ⟨rfl, fun _ _ => rfl, fun h => absurd h (by decide)⟩
  | decodeError st' payload hst hcode hp =>
    cases List.append_cancel_left hrsq
    exact ⟨rfl, fun h1 h2 => (hcode.elim h1 h2).elim, fun _ => ⟨payload, hp, rfl⟩⟩
  | bareError st' hst hcode =>
    cases List.append_cancel_left hrsq
    refine ⟨rfl, fun _ _ => rfl, fun h => absurd ?_ hcode⟩
    rcases h with rfl | rfl <;> decide

/-- R65: an operation with a compared length checks it before anything else. -/
theorem exec_eq_limited {i : Instr} {n : Nat} (h : limitedLength i = some n) :
    ∃ body, exec i = limited n body := by
  cases i <;> cases h <;> exact ⟨_, rfl⟩

/-- Settles O28: above the limit every such operation answers `Overlength`, and no other answer has that
status. -/
theorem overlengthExactlyAboveMaxLen : Obligations.OverlengthExactlyAboveMaxLen := by
  refine ⟨fun i s n hn hlt => ?_, fun i s t r hx hrsq => ?_⟩
  · obtain ⟨body, hbody⟩ := exec_eq_limited hn
    rw [hbody, limited_of_lt hlt]
  · cases canAnswer_of_exec hx with
    | success v r' hst => cases List.append_cancel_left hrsq
    | overlength n hn hlt => exact ⟨n, hn, hlt⟩
    | decodeError st payload hst hcode hp =>
      cases List.append_cancel_left hrsq
      exact absurd hcode (by decide)
    | bareError st hst hcode =>
      cases List.append_cancel_left hrsq
      exact absurd (by decide) hcode

end Sys2Proof.Machine
end

section
/-! PROOFS. The payload decoder and the zone bitmap answers (43_payload_decoder.md R160 to R176). -/

namespace Sys2Proof.Machine

/-! ### `PL.DECODE` runs the payload's row (R160, R175) -/

theorem exec_plDecode_devInfo (rest : List Byte) (s : State) :
    exec (.plDecode (0x7E#8 :: rest)) s = exec (.payload7E rest) s := rfl

theorem exec_plDecode_zones (data : List Byte) (s : State) :
    exec (.plDecode (0x0A#8 :: data)) s = exec (.payload0A data) s := rfl

theorem decodeAny_other {cmd : Byte} (h7 : cmd ≠ Config.cmdDevInfo) (h0 : cmd ≠ Config.cmdZones)
    (rest : List Byte) : decodeAny (cmd :: rest) = .error (.unsupportedCommand (cmd :: rest)) := by
  rw [decodeAny, if_neg h7, if_neg h0]

theorem exec_plDecode_other {cmd : Byte} (h7 : cmd ≠ 0x7E#8) (h0 : cmd ≠ 0x0A#8)
    (rest : List Byte) (s : State) :
    exec (.plDecode (cmd :: rest)) s = exec (.payloadOther cmd rest) s :=
  congrArg (fun r => limited (rest.length + 1) (respondDecoded r) s) (decodeAny_other h7 h0 rest)

/-! ### Device info -/

theorem lookupIn_code (t : List (Byte × String)) (v : Byte) : (lookupIn t v).code = v := by
  unfold lookupIn
  split <;> rfl

/-- R162: the first entry with the code decides. -/
theorem lookupIn_cons (code : Byte) (name : String) (t : List (Byte × String)) (v : Byte) :
    lookupIn ((code, name) :: t) v = if v = code then .named v name else lookupIn t v := by
  by_cases hv : v = code <;> simp [lookupIn, List.lookup, hv, beq_false_of_ne]

/-- R162, R69: the known flag says whether the table has the code. -/
theorem lookupIn_flag (t : List (Byte × String)) (v : Byte) :
    (lookupIn t v).flag = if v ∈ t.map Prod.fst then 0x01#8 else 0x00#8 := by
  induction t with
  | nil => rfl
  | cons e t ih =>
    rw [lookupIn_cons, List.map_cons]
    by_cases hv : v = e.1
    · rw [if_pos hv, if_pos (hv ▸ .head _)]
      rfl
    · rw [if_neg hv, ih]
      simp only [List.mem_cons, hv, false_or]

/-- R165, R171: a `7E` payload of 14 bytes or more is device info. -/
theorem decode7E_of_le {payload : List Byte} (h : 14 ≤ payload.length) :
    decode7E payload = .ok (.deviceInfo (lookupIn Config.alarmType (byteAt payload 1))
      (version (slice payload 2 13)) (lookupIn Config.language (byteAt payload 13))) :=
  if_neg (Nat.not_lt.mpr h)

/-- R165: a shorter one is malformed. -/
theorem decode7E_of_lt {payload : List Byte} (h : payload.length < 14) :
    decode7E payload = .error (.malformedPayload payload) := if_pos h

/-- R171, R175, R69: the fields a `7E` payload of 14 bytes or more within `MAX_LEN` is answered by. -/
theorem exec_payload7E_of_le {rest : List Byte} (h : 14 ≤ rest.length + 1)
    (hmax : rest.length + 1 ≤ Config.maxLen) (s : State) :
    exec (.payload7E rest) s = .next (s.answered 0x00#8
      ([0x7E#8, byteAt rest 0,
        if byteAt rest 0 ∈ Config.alarmType.map Prod.fst then 0x01#8 else 0x00#8, byteAt rest 12,
        if byteAt rest 12 ∈ Config.language.map Prod.fst then 0x01#8 else 0x00#8,
        BitVec.ofNat 8 (version (slice rest 1 12)).length] ++ version (slice rest 1 12))) := by
  rw [exec, execPayload7E, limited_of_le hmax,
    decode7E_of_le (payload := Config.cmdDevInfo :: rest) h, respondDecoded_answers]
  simp only [lookupIn_code, lookupIn_flag]
  rfl

/-- R168: the version pattern with the renderings of 11 bytes in its places. -/
theorem version_eq (d0 d1 d2 d3 d4 d5 d6 d7 d8 d9 d10 : Byte) :
    version [d0, d1, d2, d3, d4, d5, d6, d7, d8, d9, d10] =
      render d0 ++ [0x2E#8] ++ render d1 ++ render d2 ++ [0x20#8] ++ render d3 ++ render d4 ++
      render d5 ++ render d6 ++ [0x2D#8] ++ render d7 ++ render d8 ++ [0x2D#8] ++ render d9 ++
      render d10 := by
  simp [version, Config.versionPattern, substitute]

/-- Settles O47: the fields of the payload are looked up and rendered, and the rest is not read. -/
theorem deviceInfoAnswer : Obligations.DeviceInfoAnswer := by
  rintro t l d0 d1 d2 d3 d4 d5 d6 d7 d8 d9 d10 extra s hlen v rfl u rfl
  have hrow := exec_payload7E_of_le
    (rest := [t, d0, d1, d2, d3, d4, d5, d6, d7, d8, d9, d10, l] ++ extra) (s := s)
    (by simp) (by simp; omega)
  have hslice : slice ([t, d0, d1, d2, d3, d4, d5, d6, d7, d8, d9, d10, l] ++ extra) 1 12 =
      [d0, d1, d2, d3, d4, d5, d6, d7, d8, d9, d10] := rfl
  rw [hslice, version_eq] at hrow
  exact ⟨(exec_plDecode_devInfo _ s).trans hrow, hrow⟩

/-- Settles O50: a short payload is within `MAX_LEN`, and its decoding fails by its length. -/
theorem shortPayloadIsMalformed : Obligations.ShortPayloadIsMalformed := by
  have hmax := maxLen_bounds.1
  refine ⟨fun rest s hlen => ?_, fun s => limited_of_le (Nat.zero_le _) _ s⟩
  have hrow : exec (.payload7E rest) s =
      .next (s.answered 0x12#8 (be16n (rest.length + 1) ++ 0x7E#8 :: rest)) := by
    rw [exec, execPayload7E, limited_of_le (by omega),
      decode7E_of_lt (payload := Config.cmdDevInfo :: rest) hlen]
    rfl
  exact ⟨(exec_plDecode_devInfo rest s).trans hrow, hrow⟩

/-- Settles O51: `PL.DECODE` runs the row, which answers the zones of the bytes after the command byte, with
their count. -/
theorem zoneBitmapAnswer : Obligations.ZoneBitmapAnswer := by
  rintro data s hlen u rfl
  have hrow : exec (.payload0A data) s = .next (s.answered 0x00#8
      ([0x0A#8] ++ be32n (zoneUnpack data).length ++ (zoneUnpack data).flatMap be32n)) :=
    limited_of_le hlen _ s
  exact ⟨(exec_plDecode_zones data s).trans hrow, hrow⟩

/-- Settles O52: the row of the other command bytes answers with the payload, and `PL.DECODE` runs it. -/
theorem otherCommandIsUnsupported : Obligations.OtherCommandIsUnsupported := by
  rintro cmd rest s h7 h0 hlen u rfl
  have hrow : exec (.payloadOther cmd rest) s =
      .next (s.answered 0x11#8 (be16n (rest.length + 1) ++ cmd :: rest)) :=
    limited_of_le hlen _ s
  exact ⟨(exec_plDecode_other h7 h0 rest s).trans hrow, hrow⟩

/-- Settles O56: the zones with their count within `MAX_LEN`, `Overlength` above it. -/
theorem zbUnpackAnswersTheZones : Obligations.ZbUnpackAnswersTheZones :=
  ⟨fun _ => rfl, fun _ s hlen => limited_of_le hlen _ s, fun _ s hlt => limited_of_lt hlt _ s⟩

end Sys2Proof.Machine
end

section
/-! PROOFS. The pseudo-operations (30_encoding.md R76). -/

namespace Sys2Proof.Machine

/-- R109: a sequence of `CK.STEP`s accumulates its bytes. -/
theorem execAll_ckSteps (bs : List Byte) (s : State) :
    ∃ t, execAll (bs.map .ckStep) s = .next t ∧ t.acc = bs.foldl ckStep s.acc := by
  induction bs generalizing s with
  | nil => exact ⟨s, rfl, rfl⟩
  | cons b bs ih => exact ih ((s.setAcc (ckStep s.acc b)).answered 0x00#8 [])

/-- R76: `CK.SEQ` leaves `ACC` at the checksum of its bytes. -/
theorem execAll_ckSeq (bs : List Byte) (s : State) :
    ∃ t, execAll (ckSeq bs) s = .next t ∧ t.acc = compute bs :=
  execAll_ckSteps bs ((s.setAcc Config.init).answered 0x00#8 [])

/-- R141: within `MAX_LEN`, FR.BUILD answers the frame with its length. -/
theorem exec_frBuild_of_le {cmd : Byte} {data : List Byte} (h : data.length + 7 ≤ Config.maxLen)
    (s : State) : exec (.frBuild cmd data) s =
      .next (s.answered 0x00#8 (withLength (buildFrame cmd data))) :=
  limited_of_le h _ s

/-- R76: the frame of `FR.REQ` has 7 bytes and so is within `MAX_LEN`. -/
theorem exec_frReq (cmd : Byte) (s : State) : exec (frReq cmd) s = .next (s.answered 0x00#8
    ([0x00#8, 0x07#8, 0xFE#8, 0xFE#8, cmd] ++ be16 (compute [cmd]) ++ [0xFE#8, 0x0D#8])) := by
  have hlen : (buildFrame cmd []).length = 7 := rfl
  rw [frReq, exec_frBuild_of_le (Nat.le_trans (by decide) maxLen_bounds.1), withLength, hlen]
  rfl

/-- Settles O36: the expansions, the `ACC` that CK.SEQ leaves and the frame that FR.REQ answers. -/
theorem pseudoOperationsExpand : Obligations.PseudoOperationsExpand :=
  ⟨fun _ => rfl, execAll_ckSeq, fun _ => ⟨rfl, rfl⟩, exec_frReq⟩

end Sys2Proof.Machine
end

section
/-! PROOFS. The arithmetic of the checksum (41_checksum.md R100 to R104, R113), CKE's operations (R108 to
R111), and accumulation (R112). -/

namespace Sys2Proof.Machine

/-! ### One step, in unbounded arithmetic -/

/-- R100: the rotation doubles, cut to 16 bits, and brings the top bit back at the bottom. -/
theorem rotl16_toNat (c : Word16) :
    (rotl16 c).toNat = (2 * c.toNat) % 65536 + c.toNat / 32768 := by
  have hc := c.isLt
  have htop : ((c &&& 0x8000#16) >>> 15).toNat = c.toNat / 32768 := by
    have hmask : (0x8000#16).toNat >>> 15 = 1 := rfl
    rw [BitVec.toNat_ushiftRight, BitVec.toNat_and, Nat.shiftRight_and_distrib, hmask,
      Nat.and_one_is_mod, Nat.shiftRight_eq_div_pow]
    omega
  have hlow : (c <<< 1).toNat = (c.toNat % 32768) <<< 1 := by
    rw [BitVec.toNat_shiftLeft, Nat.shiftLeft_eq, Nat.shiftLeft_eq]
    omega
  rw [rotl16, BitVec.toNat_or, htop, hlow, ← Nat.shiftLeft_add_eq_or_of_lt (by omega),
    Nat.shiftLeft_eq]
  omega

/-- R101: the inversion is the complement to `0xFFFF`. -/
theorem inv16_toNat (c : Word16) : (inv16 c).toNat = 65535 - c.toNat := by
  have h : inv16 c = ~~~c := BitVec.xor_allOnes
  rw [h, BitVec.toNat_not]

/-- R102: the sum of the word, its high byte and the byte, cut to 16 bits. -/
theorem addh_toNat (c : Word16) (b : Byte) :
    (addh c b).toNat = (c.toNat + c.toNat / 256 + b.toNat) % 65536 := by
  rw [addh, BitVec.toNat_ofNat, Nat.shiftRight_eq_div_pow]

/-- R102: the largest sum before it is cut. -/
theorem addh_sum_le (c : Word16) (b : Byte) :
    c.toNat + c.toNat / 256 + b.toNat ≤ 0x101FD := by
  have hc := c.isLt
  have hb := b.isLt
  omega

/-- R103: `ACC` after a step, from the rotated and inverted word. -/
theorem ckStep_toNat (c : Word16) (b : Byte) {x : Nat}
    (hx : x = 65535 - ((2 * c.toNat) % 65536 + c.toNat / 32768)) :
    (ckStep c b).toNat = (x + x / 256 + b.toNat) % 65536 := by
  rw [ckStep, addh_toNat, inv16_toNat, rotl16_toNat, hx]

/-- R102: a byte adds less than a full turn of 16 bits, so different bytes give different sums. -/
theorem addh_injective (c : Word16) : Function.Injective (addh c) := by
  intro a b h
  have hsum := congrArg BitVec.toNat h
  have ha := a.isLt
  have hb := b.isLt
  rw [addh_toNat, addh_toNat] at hsum
  apply BitVec.eq_of_toNat_eq
  omega

theorem ckStep_injective (c : Word16) : Function.Injective (ckStep c) :=
  addh_injective (inv16 (rotl16 c))

/-- Settles O30: the three functions and the bound on the sum in numbers, and the rules' examples
computed. -/
theorem checksumStepArithmetic : Obligations.ChecksumStepArithmetic :=
  ⟨rotl16_toNat, inv16_toNat, fun c b => ⟨addh_toNat c b, addh_sum_le c b⟩, fun _ _ => rfl,
    by decide, by decide, by decide, by decide⟩

/-! ### The checksum of a sequence -/

/-- R104, R112: one more byte is one more step. -/
theorem compute_concat (bs : List Byte) (b : Byte) :
    compute (bs ++ [b]) = ckStep (compute bs) b :=
  List.foldl_concat ckStep Config.init b bs

/-- R113 (b): from `INIT`, one byte is added to `0xD7E2` without a wrap. -/
theorem compute_singleton_toNat (b : Byte) : (compute [b]).toNat = 0xD7E2 + b.toNat := by
  have hb := b.isLt
  have hstep : (compute [b]).toNat = (0xD70B + 0xD70B / 256 + b.toNat) % 65536 :=
    ckStep_toNat Config.init b (by decide)
  omega

/-- R113 (e): sequences that differ only in their last byte have different checksums. -/
theorem compute_concat_ne {a b : Byte} (h : a ≠ b) (bs : List Byte) :
    compute (bs ++ [a]) ≠ compute (bs ++ [b]) := by
  rw [compute_concat, compute_concat]
  exact (ckStep_injective (compute bs)).ne h

/-- Settles O37: the single-byte sum, the collisions computed, and the injectivity of a step. -/
theorem checksumLaws : Obligations.ChecksumLaws :=
  ⟨rfl, compute_singleton_toNat, by decide, fun c _ _ h => ckStep_injective c h,
    fun bs _ _ h => compute_concat_ne h bs⟩

/-! ### The operations -/

theorem exec_ckInit (s : State) :
    exec .ckInit s = .next ((s.setAcc 0x147A#16).answered 0x00#8 []) := rfl

theorem exec_ckStep (b : Byte) (s : State) :
    exec (.ckStep b) s = .next ((s.setAcc (ckStep s.acc b)).answered 0x00#8 []) := rfl

theorem exec_ckRead (s : State) : exec .ckRead s = .next (s.answered 0x00#8 (be16 s.acc)) := rfl

/-- R110: the answer in bytes: the two digits of `ACC` to the base 256, high one first. -/
theorem exec_ckRead_of_toNat {s : State} {h l : Byte} (hacc : s.acc.toNat = h.toNat * 256 + l.toNat) :
    exec .ckRead s = .next (s.answered 0x00#8 [h, l]) := by
  have hword : rd16 h l = s.acc := BitVec.eq_of_toNat_eq ((rd16_toNat h l).trans hacc.symm)
  rw [exec_ckRead, (be16_eq_iff s.acc h l).mpr hword]

/-- R111: within `MAX_LEN`, CK.COMPUTE answers the checksum. -/
theorem exec_ckCompute_of_le {seq : List Byte} (h : seq.length ≤ Config.maxLen) (s : State) :
    exec (.ckCompute seq) s = .next (s.answered 0x00#8 (be16 (compute seq))) :=
  limited_of_le h _ s

/-- R65: above `MAX_LEN`, CK.COMPUTE answers `Overlength`. -/
theorem exec_ckCompute_of_lt {seq : List Byte} (h : Config.maxLen < seq.length) (s : State) :
    exec (.ckCompute seq) s = .next (s.answered 0x82#8 []) :=
  limited_of_lt h _ s

/-- Settles O31: CK.INIT's answer; the value it writes is that of reset. -/
theorem ckInitStartsAnAccumulation : Obligations.CkInitStartsAnAccumulation := by
  refine ⟨rfl, exec_ckInit, fun t ht => ?_⟩
  cases ht
  rfl

/-- Settles O32: CK.STEP's answer, with the step in numbers. -/
theorem ckStepAccumulatesOneByte : Obligations.CkStepAccumulatesOneByte :=
  ⟨fun _ => rfl, fun b s => ⟨ckStep s.acc b, exec_ckStep b s, fun _ => ckStep_toNat s.acc b⟩⟩

/-- Settles O33: the bytes of `ACC`, in any state and where `ACC` is `0x147A`. -/
theorem ckReadReturnsAcc : Obligations.CkReadReturnsAcc := by
  refine ⟨rfl, fun s h l => exec_ckRead_of_toNat, exec_ckRead_of_toNat (by decide),
    fun s t ht => ?_, by decide⟩
  cases ht
  exact exec_ckRead_of_toNat rfl

/-- Settles O34: the two sides of the length limit, and the rule's checksums computed. -/
theorem ckComputeReturnsTheChecksum : Obligations.CkComputeReturnsTheChecksum :=
  ⟨fun _ => rfl, fun _ s h => exec_ckCompute_of_le h s, fun _ s h => exec_ckCompute_of_lt h s,
    by decide⟩

/-! ### Accumulation -/

/-- R49: the rest of a list of requests runs from the state its first one leaves. -/
theorem execAll_cons {i : Instr} {s t : State} (hx : exec i s = .next t) (is : List Instr) :
    execAll (i :: is) s = execAll is t := by
  rw [execAll, hx]

/-- R112: requests whose writers of `ACC` are `CK.STEP`s accumulate the bytes of these, whatever runs in
between. -/
theorem execAll_acc_of_filter_writesAcc {is : List Instr} {bs : List Byte}
    (h : is.filter writesAcc = bs.map .ckStep) (s : State) :
    ∃ t, execAll is s = .next t ∧ t.acc = bs.foldl ckStep s.acc := by
  induction is generalizing bs s with
  | nil =>
    obtain rfl : bs = [] := List.map_eq_nil_iff.mp h.symm
    exact ⟨s, rfl, rfl⟩
  | cons i is ih =>
    by_cases hw : writesAcc i = true
    · rw [List.filter_cons_of_pos hw] at h
      obtain ⟨b, bs, rfl, rfl, hrest⟩ := List.map_eq_cons_iff.mp h.symm
      rw [execAll_cons (exec_ckStep b s)]
      exact ih hrest.symm _
    · rw [List.filter_cons_of_neg hw] at h
      obtain ⟨t, ht⟩ := exec_answers i s
      rw [execAll_cons ht, ← exec_acc_of_not_writesAcc (Bool.eq_false_of_not_eq_true hw) ht]
      exact ih h t

/-- Settles O35: CK.INIT sets the accumulator the steps start from; CK.READ then answers the checksum they
leave, as CK.COMPUTE does. -/
theorem accumulationEqualsCompute : Obligations.AccumulationEqualsCompute := by
  refine ⟨fun bs is s h => ?_, compute_concat⟩
  obtain ⟨t, hrun, hacc⟩ :=
    execAll_acc_of_filter_writesAcc h ((s.setAcc 0x147A#16).answered 0x00#8 [])
  have hcompute : t.acc = compute bs := hacc
  have hread : exec .ckRead t = .next (t.answered 0x00#8 (be16 (compute bs))) := by
    rw [exec_ckRead, hcompute]
  exact ⟨t, hrun, hcompute, hread, fun hlen => (exec_ckCompute_of_le hlen t).trans hread.symm⟩

end Sys2Proof.Machine
end

section
/-! PROOFS. FRC, the frame codec: the fields of a sequence and the checks on them (42_frame_codec.md R130 to
R140, R144), changed and joined frames (R145; 70_reset_and_hazards.md R238), and FRC's operations (R141 to
R143). -/

namespace Sys2Proof.Machine

/-! ### The fields of a sequence -/

/-- A slice whose bounds are those of the middle part is the middle part. -/
theorem slice_append_middle (a b c : List Byte) {i j : Nat} (hi : i = a.length)
    (hj : j = a.length + b.length) : slice (a ++ b ++ c) i j = b := by
  subst hi hj
  rw [slice, ← List.length_append, List.take_left, List.drop_left]

theorem rd16At_append (a c : List Byte) (h l : Byte) :
    rd16At (a ++ h :: l :: c) a.length = rd16 h l := by
  simp [rd16At, byteAt]

/-- The layout of R130 with any bytes in its fields: two header bytes, the interior, two checksum bytes and
two footer bytes. -/
def framed (h1 h2 : Byte) (interior : List Byte) (k1 k2 f1 f2 : Byte) : List Byte :=
  [h1, h2] ++ interior ++ [k1, k2] ++ [f1, f2]

/-- R130, R132: a built frame has the header, the checksum of its interior and the footer in their
fields. -/
theorem buildFrame_eq_framed (c : Byte) (d : List Byte) :
    buildFrame c d = framed 0xFE#8 0xFE#8 (c :: d) (hi8 (compute (c :: d))) (lo8 (compute (c :: d)))
      0xFE#8 0x0D#8 := rfl

/-- Every sequence of 6 bytes or more has the fields of a frame. -/
theorem exists_framed {bytes : List Byte} (hlen : 6 ≤ bytes.length) :
    ∃ h1 h2 interior k1 k2 f1 f2, bytes = framed h1 h2 interior k1 k2 f1 f2 := by
  match bytes with
  | h1 :: h2 :: rest =>
    simp only [List.length_cons] at hlen
    obtain ⟨k1, k2, f1, f2, hk⟩ := List.length_eq_four.mp
      (show (rest.drop (rest.length - 4)).length = 4 by rw [List.length_drop]; omega)
    refine ⟨h1, h2, rest.take (rest.length - 4), k1, k2, f1, f2, ?_⟩
    have hsplit := List.take_append_drop (rest.length - 4) rest
    rw [hk] at hsplit
    simpa [framed] using hsplit.symm

section
variable (h1 h2 k1 k2 f1 f2 : Byte) (interior : List Byte)

theorem framed_length : (framed h1 h2 interior k1 k2 f1 f2).length = interior.length + 6 := by
  simp [framed]

theorem slice_framed_header : slice (framed h1 h2 interior k1 k2 f1 f2) 0 2 = [h1, h2] := rfl

theorem slice_framed_interior :
    slice (framed h1 h2 interior k1 k2 f1 f2) 2
      ((framed h1 h2 interior k1 k2 f1 f2).length - 4) = interior := by
  rw [framed_length, framed, List.append_assoc]
  exact slice_append_middle [h1, h2] interior _ rfl (Nat.add_comm _ _)

theorem rd16At_framed_checksum :
    rd16At (framed h1 h2 interior k1 k2 f1 f2)
      ((framed h1 h2 interior k1 k2 f1 f2).length - 4) = rd16 k1 k2 := by
  rw [framed_length, framed, List.append_assoc]
  exact rd16At_append ([h1, h2] ++ interior) [f1, f2] k1 k2

theorem slice_framed_footer :
    slice (framed h1 h2 interior k1 k2 f1 f2)
      ((framed h1 h2 interior k1 k2 f1 f2).length - 2)
      (framed h1 h2 interior k1 k2 f1 f2).length = [f1, f2] := by
  have hslice := slice_append_middle ([h1, h2] ++ interior ++ [k1, k2]) [f1, f2] []
    (i := interior.length + 4) (j := interior.length + 6) (by simp) (by simp)
  rw [List.append_nil] at hslice
  rw [framed_length]
  exact hslice

end

/-- R133: the length of a built frame. -/
theorem buildFrame_length (c : Byte) (d : List Byte) : (buildFrame c d).length = d.length + 7 :=
  framed_length ..

/-! ### The checks, in their order -/

/-- R134: fewer than 6 bytes are `TooShort`. -/
theorem parseFrame_of_length_lt {bytes : List Byte} (h : bytes.length < 6) :
    parseFrame bytes = .error .tooShort := if_pos h

/-- R138: what an interior parses to once every check has passed. -/
def frameOfInterior : List Byte → Except FrameError Frame
  | [] => .error .tooShort
  | c :: d => .ok { command := c, data := d }

section
variable {h1 h2 k1 k2 f1 f2 : Byte} {interior : List Byte}

/-- R139: the checks of `parseFrame`, on the fields of a sequence. -/
theorem parseFrame_framed : parseFrame (framed h1 h2 interior k1 k2 f1 f2) =
    if [h1, h2] ≠ Config.header then .error .badHeader
    else if [f1, f2] ≠ Config.footer then .error .badFooter
    else if rd16 k1 k2 ≠ compute interior then .error .checksumMismatch
    else frameOfInterior interior := by
  have hlen : ¬ (framed h1 h2 interior k1 k2 f1 f2).length < 6 := by rw [framed_length]; omega
  rw [parseFrame, if_neg hlen, slice_framed_header, slice_framed_footer, rd16At_framed_checksum,
    slice_framed_interior]
  cases interior <;> rfl

/-- R135: a wrong header decides, whatever the later fields hold. -/
theorem parseFrame_badHeader (hh : [h1, h2] ≠ Config.header) :
    parseFrame (framed h1 h2 interior k1 k2 f1 f2) = .error .badHeader := by
  rw [parseFrame_framed, if_pos hh]

/-- R136: behind a right header, a wrong footer decides before the checksum. -/
theorem parseFrame_badFooter (hh : [h1, h2] = Config.header) (hf : [f1, f2] ≠ Config.footer) :
    parseFrame (framed h1 h2 interior k1 k2 f1 f2) = .error .badFooter := by
  rw [parseFrame_framed, if_neg (not_not_intro hh), if_pos hf]

/-- R137: the checksum is compared once header and footer are right. -/
theorem parseFrame_checksumMismatch (hh : [h1, h2] = Config.header) (hf : [f1, f2] = Config.footer)
    (hk : rd16 k1 k2 ≠ compute interior) :
    parseFrame (framed h1 h2 interior k1 k2 f1 f2) = .error .checksumMismatch := by
  rw [parseFrame_framed, if_neg (not_not_intro hh), if_neg (not_not_intro hf), if_pos hk]

/-- R138: past the checksum, the interior decides. -/
theorem parseFrame_of_checks (hh : [h1, h2] = Config.header) (hf : [f1, f2] = Config.footer)
    (hk : rd16 k1 k2 = compute interior) :
    parseFrame (framed h1 h2 interior k1 k2 f1 f2) = frameOfInterior interior := by
  rw [parseFrame_framed, if_neg (not_not_intro hh), if_neg (not_not_intro hf),
    if_neg (not_not_intro hk)]

end

/-- Settles O39: a sequence in its fields, check by check. -/
theorem parseFrameChecksInOrder : Obligations.ParseFrameChecksInOrder := by
  refine ⟨fun _ => parseFrame_of_length_lt, ?_⟩
  rintro h1 h2 k1 k2 f1 f2 interior _ rfl
  refine ⟨parseFrame_badHeader, parseFrame_badFooter, parseFrame_checksumMismatch, ?_, ?_⟩
  · rintro hh hf hk rfl
    exact parseFrame_of_checks hh hf hk
  · rintro c d hh hf hk rfl
    exact parseFrame_of_checks hh hf hk

/-! ### Building and parsing invert each other -/

/-- R144: a built frame passes every check, its checksum being that of its interior. -/
theorem parseFrame_buildFrame (c : Byte) (d : List Byte) :
    parseFrame (buildFrame c d) = .ok { command := c, data := d } :=
  parseFrame_of_checks rfl rfl (rd16_be16 (compute (c :: d)))

/-- R144, the converse: the only bytes that parse as a frame are those built from it. -/
theorem buildFrame_of_parseFrame {bytes : List Byte} {f : Frame} (h : parseFrame bytes = .ok f) :
    buildFrame f.command f.data = bytes := by
  rcases Nat.lt_or_ge bytes.length 6 with hlen | hlen
  · rw [parseFrame_of_length_lt hlen] at h
    contradiction
  obtain ⟨h1, h2, interior, k1, k2, f1, f2, rfl⟩ := exists_framed hlen
  rw [parseFrame_framed] at h
  split_ifs at h with hh hf hk
  cases interior with
  | nil => contradiction
  | cons c d =>
    cases h
    rw [buildFrame, ← not_not.mp hh, ← not_not.mp hf, (be16_eq_iff _ k1 k2).mpr (not_not.mp hk)]
    rfl

/-- R142: within `MAX_LEN`, FR.PARSE answers the parse result. -/
theorem exec_frParse_of_le {bytes : List Byte} (h : bytes.length ≤ Config.maxLen) (s : State) :
    exec (.frParse bytes) s = respondParsed (parseFrame bytes) s :=
  limited_of_le h _ s

/-- Settles O40: the two inversions, and the answer of FR.PARSE to the first one's result. -/
theorem buildAndParseAreInverses : Obligations.BuildAndParseAreInverses := by
  refine ⟨parseFrame_buildFrame, fun _ _ => buildFrame_of_parseFrame, fun c d s hlen => ?_⟩
  rw [exec_frParse_of_le (by rwa [buildFrame_length]), parseFrame_buildFrame]
  rfl

/-- Settles O41: a sequence that parses is the built frame, and its interior is the payload. -/
theorem extractedPayloadIsTheInterior : Obligations.ExtractedPayloadIsTheInterior := by
  refine ⟨fun _ _ => rfl, fun bytes f h => ?_⟩
  rw [← buildFrame_of_parseFrame h, buildFrame_eq_framed, slice_framed_interior, extractPayload]

/-! ### The layout of a built frame -/

/-- Settles O38: each field is what stands between the fields before and after it. -/
theorem builtFrameLayout : Obligations.BuiltFrameLayout := by
  intro c d
  refine ⟨buildFrame_length c d, rfl, rfl, ?_, ?_, ?_⟩
  · rw [buildFrame, List.append_assoc]
    exact slice_append_middle (Config.header ++ [c]) d _ rfl rfl
  · exact slice_append_middle (Config.header ++ [c] ++ d) (be16 (compute (c :: d))) Config.footer
      (by simp [Config.header]; omega) (by simp [Config.header]; omega)
  · rw [← List.append_nil (buildFrame c d)]
    exact slice_append_middle (Config.header ++ [c] ++ d ++ be16 (compute (c :: d))) Config.footer []
      (by simp [Config.header]; omega) (by simp [Config.header, Config.footer]; omega)

/-! ### Changed and joined frames -/

/-- R145 (d): a built frame before its footer. -/
theorem take_buildFrame (c : Byte) (d : List Byte) : (buildFrame c d).take (d.length + 5) =
    Config.header ++ c :: d ++ be16 (compute (c :: d)) :=
  List.take_left' (by simp [Config.header])

/-- Settles O42: a changed field fails its own check; a last byte of the interior changes the checksum. -/
theorem tamperedFrames : Obligations.TamperedFrames := by
  refine ⟨fun c k1 k2 d hne => ?_, fun init x y hxy => ?_, fun c h1 h2 d hne => ?_,
    fun c f1 f2 d hne => ?_, by decide⟩
  · exact parseFrame_checksumMismatch rfl rfl fun hk => hne ((be16_eq_iff _ k1 k2).mpr hk).symm
  · refine parseFrame_checksumMismatch rfl rfl ?_
    rw [rd16_be16]
    exact compute_concat_ne hxy init
  · exact parseFrame_badHeader hne
  · rw [take_buildFrame]
    exact parseFrame_badFooter rfl hne

/-- R238: two joined frames have the first one's header, the second one's checksum and footer, and everything
between as their interior. -/
theorem buildFrame_append_buildFrame (c1 c2 : Byte) (d1 d2 : List Byte) :
    buildFrame c1 d1 ++ buildFrame c2 d2 =
      framed 0xFE#8 0xFE#8 (c1 :: (d1 ++ be16 (compute (c1 :: d1)) ++
        [0xFE#8, 0x0D#8, 0xFE#8, 0xFE#8] ++ c2 :: d2))
        (hi8 (compute (c2 :: d2))) (lo8 (compute (c2 :: d2))) 0xFE#8 0x0D#8 := by
  simp [buildFrame, framed, Config.header, Config.footer, be16]

/-- Settles O43: the checksum check of the joined frames decides. -/
theorem joinedFramesPassOnlyOnEqualChecksums :
    Obligations.JoinedFramesPassOnlyOnEqualChecksums := by
  rintro c1 c2 d1 d2 _ rfl
  rw [buildFrame_append_buildFrame]
  refine ⟨fun _ => parseFrame_checksumMismatch rfl rfl ?_, fun _ => parseFrame_of_checks rfl rfl ?_⟩
  · rwa [rd16_be16]
  · rwa [rd16_be16]

/-! ### The operations -/

/-- Settles O44: the frame with its length within `MAX_LEN`, `Overlength` above it; the rules' frames
computed. -/
theorem frBuildAnswersTheFrame : Obligations.FrBuildAnswersTheFrame := by
  refine ⟨fun _ _ => rfl, fun cmd data s hlen => ?_, fun _ _ s hlt => limited_of_lt hlt _ s, ?_⟩
  · rw [exec_frBuild_of_le hlen, withLength, buildFrame_length]
    rfl
  · exact ⟨by decide, by decide, fun _ _ => rfl⟩

/-- Settles O45: `Overlength` above `MAX_LEN`, and within it the answer to each parse result; the rule's
operands computed. -/
theorem frParseAnswersTheFrameOrItsError : Obligations.FrParseAnswersTheFrameOrItsError := by
  refine ⟨fun _ => rfl, fun _ s hlt => limited_of_lt hlt _ s, fun bytes s hlen => ?_, by decide⟩
  rw [exec_frParse_of_le hlen, respondParsed_answers]
  refine ⟨fun c d h => ?_, fun h => ?_, fun h => ?_, fun h => ?_, fun h => ?_⟩ <;> rw [h] <;> rfl

/-- Settles O46: the payload with its length within `MAX_LEN`, `Overlength` above it. -/
theorem frExtractAnswersThePayload : Obligations.FrExtractAnswersThePayload :=
  ⟨fun _ _ => rfl, fun _ _ s hlen => limited_of_le hlen _ s, fun _ _ s hlt => limited_of_lt hlt _ s⟩

end Sys2Proof.Machine
end

section
/-! PROOFS. The zones of a bitmap (43_payload_decoder.md R172, R173; 20_memory.md R44), and unpacking as the
inverse of packing (R179). -/

namespace Sys2Proof.Machine

/-! ### The zones of one byte -/

theorem mem_byteZones {p n : Nat} {b : Byte} :
    n ∈ byteZones p b ↔ ∃ k < 8, b.getLsbD k = true ∧ n = p + k + 1 := by
  simp only [byteZones, List.mem_filterMap, List.mem_range, Option.ite_none_right_eq_some,
    Option.some.injEq, eq_comm (b := n)]

theorem byteZones_bounds {p n : Nat} {b : Byte} (h : n ∈ byteZones p b) : p + 1 ≤ n ∧ n ≤ p + 8 := by
  obtain ⟨k, hk, -, rfl⟩ := mem_byteZones.mp h
  omega

theorem byteZones_pairwise (p : Nat) (b : Byte) : (byteZones p b).Pairwise (· < ·) := by
  refine List.Pairwise.filterMap _ (fun k l hkl m hm n hn => ?_) List.pairwise_lt_range
  obtain ⟨-, hm⟩ := Option.ite_none_right_eq_some.mp hm
  obtain ⟨-, hn⟩ := Option.ite_none_right_eq_some.mp hn
  cases hm
  cases hn
  omega

theorem byteZones_length (p : Nat) (b : Byte) :
    (byteZones p b).length = ((List.range 8).filter (fun k => b.getLsbD k)).length := by
  rw [byteZones, List.length_filterMap_eq_countP, List.countP_eq_length_filter]
  congr 2
  funext k
  cases b.getLsbD k <;> rfl

/-! ### The zones of the bytes from a running counter on -/

/-- R172: the loop lists bit `k` of byte `j` as its counter's start and `8*j + k + 1`. -/
theorem mem_zonesFrom {p n : Nat} {bs : List Byte} : n ∈ zonesFrom p bs ↔
    ∃ j k, j < bs.length ∧ k < 8 ∧ (bs.getD j 0#8).getLsbD k = true ∧ n = p + (8 * j + k + 1) := by
  induction bs generalizing p with
  | nil => simp [zonesFrom]
  | cons b bs ih =>
    rw [zonesFrom, List.mem_append, mem_byteZones, ih]
    constructor
    · rintro (⟨k, hk, hbit, rfl⟩ | ⟨j, k, hj, hk, hbit, rfl⟩)
      · exact ⟨0, k, Nat.zero_lt_succ _, hk, hbit, by omega⟩
      · exact ⟨j + 1, k, Nat.succ_lt_succ hj, hk, hbit, by omega⟩
    · rintro ⟨_ | j, k, hj, hk, hbit, rfl⟩
      · exact .inl ⟨k, hk, hbit, by omega⟩
      · exact .inr ⟨j, k, Nat.lt_of_succ_lt_succ hj, hk, hbit, by omega⟩

/-- R172: the zones of a byte come before those of the bytes behind it. -/
theorem zonesFrom_pairwise (p : Nat) (bs : List Byte) : (zonesFrom p bs).Pairwise (· < ·) := by
  induction bs generalizing p with
  | nil => exact .nil
  | cons b bs ih =>
    refine List.pairwise_append.mpr ⟨byteZones_pairwise p b, ih (p + 8), fun m hm n hn => ?_⟩
    have hm' := byteZones_bounds hm
    obtain ⟨j, k, -, -, -, rfl⟩ := mem_zonesFrom.mp hn
    omega

theorem zonesFrom_length (p : Nat) (bs : List Byte) : (zonesFrom p bs).length =
    (bs.map (fun b => ((List.range 8).filter (fun k => b.getLsbD k)).length)).sum := by
  induction bs generalizing p with
  | nil => rfl
  | cons b bs ih =>
    rw [zonesFrom, List.length_append, byteZones_length, ih, List.map_cons, List.sum_cons]

/-! ### The zones of a bitmap -/

theorem mem_zoneUnpack {n : Nat} {d : List Byte} : n ∈ zoneUnpack d ↔
    ∃ j k, j < d.length ∧ k < 8 ∧ (d.getD j 0#8).getLsbD k = true ∧ n = 8 * j + k + 1 := by
  simp only [zoneUnpack, mem_zonesFrom, Nat.zero_add]

/-- R44: a partition number names one bit of the bitmap. -/
theorem mem_zoneUnpack_bit {d : List Byte} {j k : Nat} (hj : j < d.length) (hk : k < 8) :
    8 * j + k + 1 ∈ zoneUnpack d ↔ (d.getD j 0#8).getLsbD k = true := by
  refine mem_zoneUnpack.trans ⟨?_, fun hbit => ⟨j, k, hj, hk, hbit, rfl⟩⟩
  rintro ⟨j', k', -, hk', hbit, heq⟩
  obtain rfl : j = j' := by omega
  obtain rfl : k = k' := by omega
  exact hbit

/-- R173: partition numbers lie from 1 to `8*len(data)`. -/
theorem zoneUnpack_bounds {n : Nat} {d : List Byte} (h : n ∈ zoneUnpack d) :
    1 ≤ n ∧ n ≤ 8 * d.length := by
  obtain ⟨j, k, hj, hk, -, rfl⟩ := mem_zoneUnpack.mp h
  omega

/-- Settles O53: the loop of R172 from the counter 0. -/
theorem unpackedZonesAreTheSetBits : Obligations.UnpackedZonesAreTheSetBits := fun d =>
  ⟨zonesFrom_pairwise 0 d, fun _ => mem_zoneUnpack, fun _ => zoneUnpack_bounds,
    zonesFrom_length 0 d, rfl⟩

/-! ### Packing and unpacking -/

/-- R44: a bitmap is its bytes' bits. -/
theorem bitmap_ext {d e : List Byte} (hlen : d.length = e.length)
    (hbit : ∀ j k, j < d.length → k < 8 →
      ((d.getD j 0#8).getLsbD k = true ↔ (e.getD j 0#8).getLsbD k = true)) : d = e := by
  refine List.ext_getElem hlen fun j hj hj' => BitVec.eq_of_getLsbD_eq fun k hk => ?_
  rw [← List.getD_eq_getElem d 0#8 hj, ← List.getD_eq_getElem e 0#8 hj']
  exact Bool.eq_iff_iff.mpr (hbit j k hj hk)

/-- R179: unpacking a packed bitmap lists the packed partitions and no other. -/
theorem mem_zoneUnpack_zonePack {nb n : Nat} {ps : List Word32}
    (hps : ∀ p ∈ ps, 1 ≤ p.toNat ∧ p.toNat ≤ 8 * nb) :
    n ∈ zoneUnpack (zonePack nb ps) ↔ ∃ p ∈ ps, p.toNat = n := by
  have hpos : ∀ p ∈ ps, 1 ≤ p.toNat := fun p hp => (hps p hp).1
  rw [mem_zoneUnpack, zonePack_length]
  constructor
  · rintro ⟨j, k, hj, hk, hbit, rfl⟩
    exact (zonePack_bit hpos hj hk).mp hbit
  · rintro ⟨p, hp, rfl⟩
    have hrange := hps p hp
    have hj : (p.toNat - 1) / 8 < nb := by omega
    have hk : (p.toNat - 1) % 8 < 8 := by omega
    have hn : p.toNat = 8 * ((p.toNat - 1) / 8) + (p.toNat - 1) % 8 + 1 := by omega
    exact ⟨_, _, hj, hk, (zonePack_bit hpos hj hk).mpr ⟨p, hp, hn⟩, hn⟩

/-- R70: the unpacked numbers keep their value in 32 bits where the largest one fits. -/
theorem exists_ofNat_zoneUnpack {d : List Byte} (hd : 8 * d.length < 2 ^ 32) {n : Nat} :
    (∃ p ∈ (zoneUnpack d).map (BitVec.ofNat 32), p.toNat = n) ↔ n ∈ zoneUnpack d := by
  have hval : ∀ m ∈ zoneUnpack d, (BitVec.ofNat 32 m).toNat = m := fun m hm =>
    Nat.mod_eq_of_lt (Nat.lt_of_le_of_lt (zoneUnpack_bounds hm).2 hd)
  constructor
  · rintro ⟨p, hp, rfl⟩
    obtain ⟨m, hm, rfl⟩ := List.mem_map.mp hp
    rwa [hval m hm]
  · exact fun hn => ⟨_, List.mem_map_of_mem hn, hval n hn⟩

/-- R179: packing sets the bits that unpacking found. -/
theorem zonePack_zoneUnpack {d : List Byte} (hd : 8 * d.length < 2 ^ 32) :
    zonePack d.length ((zoneUnpack d).map (BitVec.ofNat 32)) = d := by
  have hpos : ∀ p ∈ (zoneUnpack d).map (BitVec.ofNat 32), 1 ≤ p.toNat := fun p hp =>
    (zoneUnpack_bounds ((exists_ofNat_zoneUnpack hd).mp ⟨p, hp, rfl⟩)).1
  refine bitmap_ext (zonePack_length _ _) fun j k hj hk => ?_
  rw [zonePack_length] at hj
  rw [zonePack_bit hpos hj hk, exists_ofNat_zoneUnpack hd, mem_zoneUnpack_bit hj hk]

/-- Settles O55: unpacking is always in increasing order, and both ways round the bits are the listed
partitions. -/
theorem packAndUnpackAreInverses : Obligations.PackAndUnpackAreInverses :=
  ⟨fun _ _ hps => ⟨zonesFrom_pairwise 0 _, fun _ =>
    (mem_zoneUnpack_zonePack hps).trans List.mem_map.symm⟩, fun _ => zonePack_zoneUnpack⟩

/-! ### `ZB.PACK` (R178) -/

/-- R178: ZB.PACK refuses a list with a bad partition number. -/
theorem respondPacked_of_bad {nb : Nat} {ps : List Word32}
    (h : ∃ p ∈ ps, p.toNat = 0 ∨ 8 * nb < p.toNat) (s : State) :
    respondPacked nb ps s = .next (s.answered 0x83#8 []) := by
  obtain ⟨-, hresp⟩ | ⟨hgood, -⟩ := respondPacked_cases nb ps s
  · exact hresp
  · exact absurd (badPartition_any.mpr h) (Bool.eq_false_iff.mp hgood)

/-- R178: ZB.PACK packs a list whose partition numbers all pass. -/
theorem respondPacked_of_good {nb : Nat} {ps : List Word32}
    (h : ∀ p ∈ ps, 1 ≤ p.toNat ∧ p.toNat ≤ 8 * nb) (s : State) :
    respondPacked nb ps s = .next (s.answered 0x00#8 (be16n nb ++ zonePack nb ps)) := by
  obtain ⟨hbad, -⟩ | ⟨-, hresp⟩ := respondPacked_cases nb ps s
  · obtain ⟨p, hp, hout⟩ := badPartition_any.mp hbad
    have hin := h p hp
    omega
  · exact hresp

/-- Settles O57: `Overlength` above `MAX_LEN`, and within it the check of the partition numbers decides. -/
theorem zbPackAnswersTheBitmap : Obligations.ZbPackAnswersTheBitmap :=
  ⟨fun _ _ => rfl, fun _ _ s hlt => limited_of_lt hlt _ s,
    fun _ _ s hlen hbad => (limited_of_le hlen _ s).trans (respondPacked_of_bad hbad s),
    fun _ _ s hlen hgood => (limited_of_le hlen _ s).trans (respondPacked_of_good hgood s)⟩

end Sys2Proof.Machine
end

section
/-! PROOFS. The payload dispatch of `PL.DECODE` (43_payload_decoder.md R160, R175), the lookup tables (R162,
R164, R167) and the lengths of version strings (R168). -/

namespace Sys2Proof.Machine

/-- Settles O6: the dispatch of the rows and that of `PL.DECODE` split on the same command bytes. -/
theorem plDecodeRunsThePayloadRow : Obligations.PlDecodeRunsThePayloadRow := by
  intro payload i s h
  cases payload with
  | nil => contradiction
  | cons cmd rest =>
    by_cases h7 : cmd = Config.cmdDevInfo
    · subst h7
      obtain rfl : .payload7E rest = i := Option.some.inj h
      exact exec_plDecode_devInfo rest s
    by_cases h0 : cmd = Config.cmdZones
    · subst h0
      obtain rfl : .payload0A rest = i := Option.some.inj h
      exact exec_plDecode_zones rest s
    obtain rfl : .payloadOther cmd rest = i :=
      Option.some.inj ((decodePayload_other h7 h0 rest).symm.trans h)
    exact exec_plDecode_other h7 h0 rest s

/-! ### Lookup tables -/

theorem lookupIn_nil (v : Byte) : lookupIn [] v = .unknown v := rfl

/-- Settles O49: a lookup asks for the codes of its table in turn. -/
theorem lookupTables : Obligations.LookupTables := by
  refine ⟨fun v => ?_, fun v => ?_⟩
  · simp only [Config.alarmType, lookupIn_cons, lookupIn_nil, BitVec.toNat_eq, BitVec.toNat_ofNat,
      Nat.reducePow, Nat.reduceMod]
  · simp only [Config.language, lookupIn_cons, lookupIn_nil, BitVec.toNat_eq, BitVec.toNat_ofNat,
      Nat.reducePow, Nat.reduceMod]

/-! ### Version strings -/

/-- R168: a version byte up to 9 is its ASCII digit. -/
theorem render_of_le {v : Byte} (h : v.toNat ≤ 9) : render v = [BitVec.ofNat 8 (0x30 + v.toNat)] := by
  rw [render, if_pos h, BitVec.ofNat_add, BitVec.ofNat_toNat, BitVec.setWidth_eq]

theorem render_of_ge {v : Byte} (h : 10 ≤ v.toNat) : render v = Config.renderDigit v :=
  if_neg (Nat.not_le.mpr h)

theorem render_length_of_le {v : Byte} (h : v.toNat ≤ 9) : (render v).length = 1 := by
  rw [render_of_le h, List.length_singleton]

theorem render_length_le (v : Byte) : (render v).length ≤ 3 := by
  rcases Nat.lt_or_ge 9 v.toNat with h | h
  · rw [render_of_ge h]
    exact (renderDigit_length v).2
  · rw [render_length_of_le h]
    decide

/-- R168: where the bytes fill the places of a pattern, each place gives way to a rendering. -/
theorem substitute_length (pat : List (Option Byte)) (ds : List Byte)
    (h : ds.length = pat.count none) : (substitute pat ds).length + ds.length =
      pat.length + (ds.map (fun d => (render d).length)).sum := by
  induction pat, ds using substitute.induct with
  | case1 ds =>
    obtain rfl := List.eq_nil_of_length_eq_zero h
    rfl
  | case2 ds c pat ih =>
    have := ih (by simpa using h)
    simp only [substitute, List.length_cons]
    omega
  | case3 pat d ds ih =>
    have := ih (by simpa using h)
    simp only [substitute, List.length_append, List.length_cons, List.map_cons, List.sum_cons]
    omega
  | case4 pat ih => simp at h

/-- R168: the version pattern has 4 characters beside its 11 places. -/
theorem version_length {ds : List Byte} (h : ds.length = 11) :
    (version ds).length = 4 + (ds.map (fun d => (render d).length)).sum := by
  have hpat : Config.versionPattern.length = 15 := rfl
  have hlen := substitute_length Config.versionPattern ds h
  rw [version]
  omega

/-- Settles O48: each of the 11 renderings has one character for a digit and never more than three. -/
theorem versionStringLengths : Obligations.VersionStringLengths := by
  refine ⟨fun _ => render_of_le, fun _ => render_of_ge, fun ds hlen hdigits => ?_, fun ds hlen => ?_⟩
  · have hsum : (ds.map (fun d => (render d).length)).sum = ds.length * 1 := by
      rw [List.map_congr_left fun d hd => render_length_of_le (hdigits d hd), List.map_const',
        List.sum_replicate_nat]
    rw [version_length hlen, hsum, hlen]
  · have hsum : (ds.map (fun d => (render d).length)).sum ≤ ds.length * 3 := by
      simpa using List.sum_le_card_nsmul (ds.map (fun d => (render d).length)) 3
        (List.forall_mem_map.mpr fun d _ => render_length_le d)
    rw [version_length hlen]
    omega

end Sys2Proof.Machine
end

section
/-! PROOFS. Reset (70_reset_and_hazards.md R230, R231). -/

namespace Sys2Proof.Machine

/-- R230, R231: a reset that is next is the step, whatever the block could do, and empties both parts of
`RQB`. -/
theorem step_rst {s : State} {q : List HostAct} (hs : s.script = .rst :: q) :
    step s = .next { s with acc := 0x147A#16, rqb := [], rqbLater := [], rsq := [], script := q } := by
  rw [step_of_nextMove_host (State.nextMove_of_reset hs), State.hostAct_rst hs]

/-- Settles O16: after the reset step nothing waits in `RQB`, so a written byte joins the empty request,
and CK.READ answers the two bytes of `ACC`. -/
theorem resetDiscardsEverythingInFlight : Obligations.ResetDiscardsEverythingInFlight :=
  ⟨fun _ _ => step_rst,
    fun _ _ _ hs => ⟨_, step_rst hs, step_write_incomplete decode_nil rfl rfl⟩,
    fun _ _ hs => ⟨_, step_rst hs, exec_ckRead_of_toNat rfl⟩⟩

end Sys2Proof.Machine
end
